-- ==== Sys2Proof/Word.lean ====
section
/-! DEFINITION. Words, and the three encoded formats of the block (spec/30_encoding.md R80, R81, R82, R86). -/

namespace Sys2Proof

/-- A raster or tile sample, SAMPLE_BITS = 8 (R7). -/
abbrev Byte := BitVec 8

/-- A register of the window, REG_BITS = 32, and a source-memory address, ADDR_BITS = 32 (R7). -/
abbrev Word := BitVec 32

/-- A byte offset in the 4096-byte register window (R60, R81). -/
abbrev Offset := BitVec 12

/-- The SIZE field of a BUS descriptor (R81). -/
abbrev Size := BitVec 2

/-- A BUS descriptor: WE at bit 14, SIZE at bits 13..12, OFFSET at bits 11..0 (R81). -/
abbrev Descriptor := BitVec 15

/-- What the host presents: one word of one of the two host-side formats of R80.
`bus` is a BUS descriptor with its DATA word; a read carries no DATA, and the decoder ignores the field for it.
`cmd` is a CMD word by itself: the DATA of a legal write to CMD (R82; DESIGN CHOICE, log entry 20). -/
inductive HostWord where
  | bus (descriptor : Descriptor) (data : Word)
  | cmd (word : Word)
  deriving DecidableEq, Repr

/-- What a CMD word selects (R83). -/
inductive Command where
  | nop
  | start
  | abort
  | clearErr
  | illegal (word : Word)
  deriving DecidableEq, Repr

end Sys2Proof
end

