-- ==== Sys2Proof/Syntax.lean ====
section
/-! DEFINITION. The instructions: one constructor for every row of spec/opcode_table.json.
A host access to the register window is one instruction (spec/41_register_access.md), and so is a command
(spec/40_commands.md). -/

namespace Sys2Proof

/-- One row of the opcode table each.
`we` is the descriptor's WE bit, `half` tells SIZE = 0b01 from SIZE = 0b00, `offset` is OFFSET and `d` is the DATA of a
write (R81). -/
inductive Instr where
  /-- BUSERR_SIZE: SIZE = 0b00 or 0b01 (R121). -/
  | busErrSize (we half : Bool) (offset : Offset)
  /-- BUSERR_SIZE3: SIZE = 0b11, reserved (R121). -/
  | busErrSize3 (we : Bool) (offset : Offset)
  /-- BUSERR_ALIGN1: a 4-byte access at an odd offset (R121). -/
  | busErrAlign1 (we : Bool) (offset : Offset)
  /-- BUSERR_ALIGN2: a 4-byte access at an offset that is 2 modulo 4 (R121). -/
  | busErrAlign2 (we : Bool) (offset : Offset)
  /-- RD_ID (R122). -/
  | rdId
  /-- WR_ID (R123). -/
  | wrId (d : Word)
  /-- RD_CMD (R124). -/
  | rdCmd
  /-- WR_CMD (R125). -/
  | wrCmd (d : Word)
  /-- RD_STATUS (R126). -/
  | rdStatus
  /-- WR_STATUS (R127). -/
  | wrStatus (d : Word)
  /-- RD_INT_EN (R128). -/
  | rdIntEn
  /-- WR_INT_EN (R129). -/
  | wrIntEn (d : Word)
  /-- RD_WIDTH (R130). -/
  | rdWidth
  /-- WR_WIDTH (R131). -/
  | wrWidth (d : Word)
  /-- RD_HEIGHT (R132). -/
  | rdHeight
  /-- WR_HEIGHT (R133). -/
  | wrHeight (d : Word)
  /-- RD_FORMAT (R134). -/
  | rdFormat
  /-- WR_FORMAT (R135). -/
  | wrFormat (d : Word)
  /-- RD_SRC_BASE (R136). -/
  | rdSrcBase
  /-- WR_SRC_BASE (R137). -/
  | wrSrcBase (d : Word)
  /-- RD_TILES_X (R138). -/
  | rdTilesX
  /-- WR_TILES_X (R142). -/
  | wrTilesX (d : Word)
  /-- RD_TILES_Y (R139). -/
  | rdTilesY
  /-- WR_TILES_Y (R143). -/
  | wrTilesY (d : Word)
  /-- RD_TILE_COUNT (R140). -/
  | rdTileCount
  /-- WR_TILE_COUNT (R144). -/
  | wrTileCount (d : Word)
  /-- RD_TILE_INDEX (R141). -/
  | rdTileIndex
  /-- WR_TILE_INDEX (R145). -/
  | wrTileIndex (d : Word)
  /-- RD_RESERVED: a read at an offset 0x030 to 0xFFC (R146). -/
  | rdReserved (offset : Offset)
  /-- WR_RESERVED: a write at an offset 0x030 to 0xFFC (R147). -/
  | wrReserved (offset : Offset) (d : Word)
  /-- NOP, CMD word 0x00000000 (R101). -/
  | nop
  /-- START, CMD word 0x00000001 (R102). -/
  | start
  /-- ABORT, CMD word 0x00000002 (R108). -/
  | abort
  /-- CLEAR_ERR, CMD word 0x00000003 (R109). -/
  | clearErr
  /-- ILLEGAL_CMD: any other CMD word (R110). -/
  | illegalCmd (word : Word)
  deriving DecidableEq, Repr

end Sys2Proof
end

