-- ==== Sys2Proof/WellFormed.lean ====
section
/-! DEFINITION. Which terms of Instr are instructions: the values an operand's encoding admits
(spec/30_encoding.md R81, R83, R88 and the rows of spec/opcode_table.json). -/

namespace Sys2Proof

/-- An offset that is a multiple of 4 (R67). -/
def Offset.aligned (o : Offset) : Bool := o.extractLsb' 0 2 == 0

/-- An aligned offset of the reserved part of the window, 0x030 to 0xFFC (R70). -/
def Offset.reserved (o : Offset) : Bool := Offset.aligned o && decide (0x030 ≤ o.toNat)

/-- The well-formed instructions: every operand at a value that its row's encoding admits. -/
def Instr.wf : Instr → Bool
  | .busErrSize _ _ _ => true
  | .busErrSize3 _ _ => true
  | .busErrAlign1 _ o => o.getLsbD 0
  | .busErrAlign2 _ o => o.extractLsb' 0 2 == 2
  | .rdId => true
  | .wrId _ => true
  | .rdCmd => true
  | .wrCmd _ => true
  | .rdStatus => true
  | .wrStatus _ => true
  | .rdIntEn => true
  | .wrIntEn _ => true
  | .rdWidth => true
  | .wrWidth _ => true
  | .rdHeight => true
  | .wrHeight _ => true
  | .rdFormat => true
  | .wrFormat _ => true
  | .rdSrcBase => true
  | .wrSrcBase _ => true
  | .rdTilesX => true
  | .wrTilesX _ => true
  | .rdTilesY => true
  | .wrTilesY _ => true
  | .rdTileCount => true
  | .wrTileCount _ => true
  | .rdTileIndex => true
  | .wrTileIndex _ => true
  | .rdReserved o => Offset.reserved o
  | .wrReserved o _ => Offset.reserved o
  | .nop => true
  | .start => true
  | .abort => true
  | .clearErr => true
  | .illegalCmd w => decide (3 < w.toNat)

end Sys2Proof
end

