-- ==== Sys2Proof/Decode.lean ====
section
/-! DEFINITION. The decoder (spec/30_encoding.md R83, R88, R89), total on every word, and the encoder, from the same
tables (R81, R82, R83 and spec/20_memory.md R70). -/

namespace Sys2Proof

/-- Why a number of so many bits is no word of a host-side format of R80. -/
inductive DecodeError where
  /-- No format has this many bits. -/
  | noSuchFormat (nbits : Nat)
  /-- A bit is set that the format does not have: bit 15 beside a 15-bit descriptor, or a bit above the last one. -/
  | bitOutsideFormat (nbits w : Nat)
  deriving DecidableEq, Repr

/-- Field WE of a descriptor (R81). -/
def descWe (x : Descriptor) : Bool := x.getLsbD 14

/-- Field SIZE of a descriptor (R81). -/
def descSize (x : Descriptor) : Size := x.extractLsb' 12 2

/-- Field OFFSET of a descriptor (R81). -/
def descOffset (x : Descriptor) : Offset := x.extractLsb' 0 12

/-- A descriptor from its fields (R81). -/
def descriptor (we : Bool) (size : Size) (offset : Offset) : Descriptor :=
  BitVec.ofBool we ++ size ++ offset

/-- The command a CMD word selects (R83). -/
def decodeCommand (w : Word) : Command :=
  if w = 0 then .nop
  else if w = 1 then .start
  else if w = 2 then .abort
  else if w = 3 then .clearErr
  else .illegal w

/-- The CMD row of a CMD word (R83). -/
def decodeCmd (w : Word) : Instr :=
  match decodeCommand w with
  | .nop => .nop
  | .start => .start
  | .abort => .abort
  | .clearErr => .clearErr
  | .illegal x => .illegalCmd x

/-- The read row of an aligned offset (R70, R89). -/
def decodeRead (o : Offset) : Instr :=
  if o = 0x000 then .rdId
  else if o = 0x004 then .rdCmd
  else if o = 0x008 then .rdStatus
  else if o = 0x00C then .rdIntEn
  else if o = 0x010 then .rdWidth
  else if o = 0x014 then .rdHeight
  else if o = 0x018 then .rdFormat
  else if o = 0x01C then .rdSrcBase
  else if o = 0x020 then .rdTilesX
  else if o = 0x024 then .rdTilesY
  else if o = 0x028 then .rdTileCount
  else if o = 0x02C then .rdTileIndex
  else .rdReserved o

/-- The write row of an aligned offset (R70, R89). -/
def decodeWrite (o : Offset) (d : Word) : Instr :=
  if o = 0x000 then .wrId d
  else if o = 0x004 then .wrCmd d
  else if o = 0x008 then .wrStatus d
  else if o = 0x00C then .wrIntEn d
  else if o = 0x010 then .wrWidth d
  else if o = 0x014 then .wrHeight d
  else if o = 0x018 then .wrFormat d
  else if o = 0x01C then .wrSrcBase d
  else if o = 0x020 then .wrTilesX d
  else if o = 0x024 then .wrTilesY d
  else if o = 0x028 then .wrTileCount d
  else if o = 0x02C then .wrTileIndex d
  else .wrReserved o d

/-- The row of a host access (R89): an illegal access first, then the register map, then the reserved registers. -/
def decodeBus (x : Descriptor) (d : Word) : Instr :=
  if descSize x = 3 then .busErrSize3 (descWe x) (descOffset x)
  else if descSize x ≠ 2 then .busErrSize (descWe x) (descSize x == 1) (descOffset x)
  else if (descOffset x).getLsbD 0 then .busErrAlign1 (descWe x) (descOffset x)
  else if (descOffset x).getLsbD 1 then .busErrAlign2 (descWe x) (descOffset x)
  else if descWe x then decodeWrite (descOffset x) d
  else decodeRead (descOffset x)

/-- The decoder: every host word is one row of the opcode table (R89). -/
def decodeWord : HostWord → Instr
  | .bus x d => decodeBus x d
  | .cmd w => decodeCmd w

/-- The host word that a number of `nbits` bits is, the first word at its low end: 16 bits are a BUS descriptor with a zero
DATA word and 48 bits one with its DATA word above it (bit 15 belongs to no field and must be 0), and 32 bits are a CMD word.
The packing into whole bytes is the model's (DESIGN CHOICE, log entry 4). -/
def hostWordOfBits (nbits w : Nat) : Except DecodeError HostWord :=
  if nbits = 16 then
    if w < 2 ^ 15 then .ok (.bus (BitVec.ofNat 15 w) 0) else .error (.bitOutsideFormat nbits w)
  else if nbits = 32 then
    if w < 2 ^ 32 then .ok (.cmd (BitVec.ofNat 32 w)) else .error (.bitOutsideFormat nbits w)
  else if nbits = 48 then
    if w % 2 ^ 16 < 2 ^ 15 ∧ w < 2 ^ 48 then
      .ok (.bus (BitVec.ofNat 15 (w % 2 ^ 16)) (BitVec.ofNat 32 (w / 2 ^ 16)))
    else .error (.bitOutsideFormat nbits w)
  else .error (.noSuchFormat nbits)

/-- The instruction of a word whose bits are numbered as spec/opcode_table.json numbers them. -/
def decodeTableWord (nbits w : Nat) : Option Instr :=
  match hostWordOfBits nbits w with
  | .ok h => some (decodeWord h)
  | .error _ => none

/-- The word of a read of a named register (R90: descriptor `0x2000 | offset`). -/
def readWord (o : Offset) : HostWord := .bus (descriptor false 2 o) 0

/-- The word of a write (R90: descriptor `0x6000 | offset`, DATA = `d`). -/
def writeWord (o : Offset) (d : Word) : HostWord := .bus (descriptor true 2 o) d

/-- The encoder: the host word of an instruction (R81, R82, R83, R70). -/
def encode : Instr → HostWord
  | .busErrSize we half o => .bus (descriptor we (if half then 1 else 0) o) 0
  | .busErrSize3 we o => .bus (descriptor we 3 o) 0
  | .busErrAlign1 we o => .bus (descriptor we 2 o) 0
  | .busErrAlign2 we o => .bus (descriptor we 2 o) 0
  | .rdId => readWord 0x000
  | .wrId d => writeWord 0x000 d
  | .rdCmd => readWord 0x004
  | .wrCmd d => writeWord 0x004 d
  | .rdStatus => readWord 0x008
  | .wrStatus d => writeWord 0x008 d
  | .rdIntEn => readWord 0x00C
  | .wrIntEn d => writeWord 0x00C d
  | .rdWidth => readWord 0x010
  | .wrWidth d => writeWord 0x010 d
  | .rdHeight => readWord 0x014
  | .wrHeight d => writeWord 0x014 d
  | .rdFormat => readWord 0x018
  | .wrFormat d => writeWord 0x018 d
  | .rdSrcBase => readWord 0x01C
  | .wrSrcBase d => writeWord 0x01C d
  | .rdTilesX => readWord 0x020
  | .wrTilesX d => writeWord 0x020 d
  | .rdTilesY => readWord 0x024
  | .wrTilesY d => writeWord 0x024 d
  | .rdTileCount => readWord 0x028
  | .wrTileCount d => writeWord 0x028 d
  | .rdTileIndex => readWord 0x02C
  | .wrTileIndex d => writeWord 0x02C d
  | .rdReserved o => readWord o
  | .wrReserved o d => writeWord o d
  | .nop => .cmd 0
  | .start => .cmd 1
  | .abort => .cmd 2
  | .clearErr => .cmd 3
  | .illegalCmd w => .cmd w

/-- The table's "mask" and "match" of a row, for a BUS descriptor or a CMD word. -/
inductive RowPattern where
  | bus (mask value : Descriptor)
  | cmd (mask value : Word)
  deriving DecidableEq, Repr

/-- Whether a host word has the bits a row fixes. -/
def RowPattern.fits : RowPattern → HostWord → Bool
  | .bus m v, .bus x _ => x &&& m == v
  | .cmd m v, .cmd w => w &&& m == v
  | .bus _ _, .cmd _ => false
  | .cmd _ _, .bus _ _ => false

/-- The "mask" and "match" that spec/opcode_table.json gives an instruction's row. -/
def Instr.row : Instr → RowPattern
  | .busErrSize _ _ _ => .bus 0x2000 0x0000
  | .busErrSize3 _ _ => .bus 0x3000 0x3000
  | .busErrAlign1 _ _ => .bus 0x3001 0x2001
  | .busErrAlign2 _ _ => .bus 0x3003 0x2002
  | .rdId => .bus 0x7FFF 0x2000
  | .wrId _ => .bus 0x7FFF 0x6000
  | .rdCmd => .bus 0x7FFF 0x2004
  | .wrCmd _ => .bus 0x7FFF 0x6004
  | .rdStatus => .bus 0x7FFF 0x2008
  | .wrStatus _ => .bus 0x7FFF 0x6008
  | .rdIntEn => .bus 0x7FFF 0x200C
  | .wrIntEn _ => .bus 0x7FFF 0x600C
  | .rdWidth => .bus 0x7FFF 0x2010
  | .wrWidth _ => .bus 0x7FFF 0x6010
  | .rdHeight => .bus 0x7FFF 0x2014
  | .wrHeight _ => .bus 0x7FFF 0x6014
  | .rdFormat => .bus 0x7FFF 0x2018
  | .wrFormat _ => .bus 0x7FFF 0x6018
  | .rdSrcBase => .bus 0x7FFF 0x201C
  | .wrSrcBase _ => .bus 0x7FFF 0x601C
  | .rdTilesX => .bus 0x7FFF 0x2020
  | .wrTilesX _ => .bus 0x7FFF 0x6020
  | .rdTilesY => .bus 0x7FFF 0x2024
  | .wrTilesY _ => .bus 0x7FFF 0x6024
  | .rdTileCount => .bus 0x7FFF 0x2028
  | .wrTileCount _ => .bus 0x7FFF 0x6028
  | .rdTileIndex => .bus 0x7FFF 0x202C
  | .wrTileIndex _ => .bus 0x7FFF 0x602C
  | .rdReserved _ => .bus 0x7003 0x2000
  | .wrReserved _ _ => .bus 0x7003 0x6000
  | .nop => .cmd 0xFFFFFFFF 0x00000000
  | .start => .cmd 0xFFFFFFFF 0x00000001
  | .abort => .cmd 0xFFFFFFFF 0x00000002
  | .clearErr => .cmd 0xFFFFFFFF 0x00000003
  | .illegalCmd _ => .cmd 0x00000000 0x00000000

end Sys2Proof
end

