-- ==== Sys2Proof/Config.lean ====
section
/-! DEFINITION. The parameters that fix the block (spec/00_scope.md R7, spec/92_eei_decisions.md "OPEN parameters, collected")
and the free value of the race of spec/20_memory.md R74. -/

namespace Sys2Proof

/-- LUMA_TIE: how luma rounds an exact .5 (R153, D13). -/
inductive LumaTie where
  | halfUp
  | halfEven
  deriving DecidableEq, Repr

/-- The OPEN parameters of the platform and the implementation.
They are constant: no step changes them.
`errorRanges` is the predicate `read_error` (R62, D22) as inclusive address ranges: an address in one of them answers
`ReadError`. -/
structure Platform where
  regBase     : Nat
  irqLine     : Nat
  lumaTie     : LumaTie
  errorRanges : List (Nat × Nat)
  deriving DecidableEq, Repr

namespace Config

/-- BLOCK: the tile edge in samples (R7). -/
abbrev block : Nat := 8

/-- ID_VALUE: the constant the ID register reads (R22). -/
def idValue : Word := 0xB10C0108

/-- REG_WINDOW: the size of the register window in bytes (R7). -/
abbrev regWindow : Nat := 4096

/-- 2^ADDR_BITS: the number of bytes of source memory (R61). -/
abbrev addrSpace : Nat := 2 ^ 32

/-- The parameters at their defaults: LUMA_TIE HALF_UP and read_error false everywhere are the spec's defaults.
REG_BASE and IRQ_LINE have no default in the spec; 0 is the model's (DESIGN CHOICE, unsafe, log entry 1). -/
def defaultPlatform : Platform :=
  { regBase := 0, irqLine := 0, lumaTie := .halfUp, errorRanges := [] }

/-- What a byte of source memory that nothing has written holds.
The spec states no contents after power-on (DESIGN CHOICE, unsafe, log entry 2). -/
def unlistedByte : Byte := 0

/-- The free value of the race of R74: the byte that read number `n` under `src_race = 1` answers.
It has no body, so nothing can be proved of it (log entry 3). -/
opaque raceByte : Nat → Byte

end Config

end Sys2Proof
end

