-- ==== Sys2Proof/Machine/State.lean ====
section
/-! DEFINITION. The state of the block and of the agents around it, as plain data (spec/10_state.md), the reasons a step
can stop, and the state after reset (R40). -/

namespace Sys2Proof.Machine

/-- Why the machine stops with a fault. -/
inductive Fault where
  /-- Raised by a consumer that reads the port fields while `t_valid` = 0: they hold no value (R36, R251).
  Safe: the spec calls it a fault of the reader. -/
  | portHasNoValue
  /-- Raised by an engine step whose run has TILES_X = 0 while tiles remain, so that `t / TILES_X` has no value.
  Safe: no run reaches such a state, since START writes TILES_X (R102). -/
  | noTileGrid
  /-- Raised by an engine step whose tile has a byte at an address of 2^32 or more, outside source memory (R61).
  Safe: no run reaches such a state, since START checks the range (R106). -/
  | addressOutOfSpace
  deriving DecidableEq, Repr

/-- Why the machine refuses an instruction. -/
inductive Refusal where
  /-- Raised by exec for an instruction that has no meaning yet; every instruction of the table has one.
  Safe: the machine stops. -/
  | notModelled (mnemonic : String)
  deriving DecidableEq, Repr

/-- STATUS.STATE (R25). -/
inductive RunState where
  | idle
  | run
  | done
  | error
  deriving DecidableEq, Repr

/-- The error codes that are ever held in STATUS.ERR_CODE (R27, R200). -/
inductive ErrCode where
  | none
  | invalidCarrierDimensions
  | invalidFormat
  | addressRange
  | sourceReadError
  | illegalCommand
  deriving DecidableEq, Repr

/-- The response of a host access (R81, R120): OKAY, with RDATA for a read, or BUSERR. -/
inductive BusResponse where
  | okayRead (rdata : Word)
  | okayWrite
  | busErr
  deriving DecidableEq, Repr

/-- One tile on the output port: `t_data`, `t_index`, `t_row`, `t_col`, `t_last` (R36, R86). -/
structure Tile where
  data  : BitVec 512
  index : Word
  row   : BitVec 16
  col   : BitVec 16
  last  : Bool
  deriving DecidableEq, Repr

/-- One step of one agent (R12, R218), or one change of an input pin. -/
inductive Event where
  /-- The host presents a word of a host-side format (R80). -/
  | host (w : HostWord)
  /-- The host makes an access at a host-bus address, which the bus adapter turns into a descriptor (R81, R215). -/
  | hostBus (we : Bool) (size : Size) (addr : Nat) (data : Word)
  /-- The engine takes its enabled step, if any: ENGINE_LOAD or ENGINE_FAULT (R157). -/
  | engine
  /-- The engine reads a byte ahead of need into its hidden state (R37, R77). -/
  | readAhead (addr : Word)
  /-- A consumer step with `t_ready` at the given level (R87, R159). -/
  | consumer (tReady : Bool)
  /-- The consumer reads the port fields outside a transfer (R251). -/
  | samplePort
  /-- Source memory begins or ceases to answer the engine's reads (R218, R255). -/
  | memoryAnswers (level : Bool)
  /-- Some agent other than the block writes a byte of source memory (R90 `POKE`). -/
  | poke (addr : Word) (value : Byte)
  /-- The reset input `rst` takes the given level (R240). -/
  | resetPin (level : Bool)
  deriving DecidableEq, Repr

/-- The whole state. -/
structure State where
  /-- STATUS.STATE (R25). -/
  state      : RunState
  /-- STATUS.IGN (R26). -/
  ign        : Bool
  /-- STATUS.ERR_CODE (R27). -/
  errCode    : ErrCode
  /-- INT_EN: bit 0 is DONE_IE, bit 1 is ERR_IE (R28). -/
  intEn      : BitVec 2
  /-- WIDTH.W (R29). -/
  width      : BitVec 16
  /-- HEIGHT.H (R30). -/
  height     : BitVec 16
  /-- FORMAT.CH_MODE (R31). -/
  fmt        : BitVec 2
  /-- SRC_BASE (R32). -/
  srcBase    : Word
  /-- TILES_X (R33). -/
  tilesX     : Word
  /-- TILES_Y (R33). -/
  tilesY     : Word
  /-- TILE_COUNT (R34). -/
  tileCount  : Word
  /-- TILE_INDEX (R35). -/
  tileIndex  : Word
  /-- The tile buffer of the output port: `none` is `t_valid` = 0, when the port fields hold no value (R36). -/
  port       : Option Tile
  /-- The hidden state of R37: source bytes read ahead, by address. -/
  hidden     : List Host.Cell
  /-- The model-only flag `src_race` (R38). -/
  srcRace    : Bool
  /-- Source memory (R61), in the canonical form of Memory.wf. -/
  sourceMem  : List Host.Cell
  /-- Whether source memory answers the engine's reads at present, an input (R218, R255, log entry 22).
  The model's own field. -/
  memAnswers : Bool
  /-- The level of the reset input `rst` (R240). -/
  rst        : Bool
  /-- The response of the last host access; `none` before the first (R120). The model's own field. -/
  response   : Option BusResponse
  /-- Every tile a consumer has taken, the newest first (R159 `deliver`). The model's own field. -/
  delivered  : List Tile
  /-- The steps of the agents still to come, in the order of the interleaving (R12). The model's own field. -/
  schedule   : List Event
  /-- How many free values have been drawn. The model's own field. -/
  freeDrawn  : Nat
  /-- The OPEN parameters; constant. The model's own field. -/
  platform   : Platform
  deriving DecidableEq, Repr

/-- The machine right after reset (R40, R240): every component of R21 at its reset value, hidden state empty, `src_race` 0.
The model's own fields start empty, and memory answers (DESIGN CHOICE, log entries 1, 2, 3, 5, 13 and 22). -/
def State.reset : State :=
  { state := .idle, ign := false, errCode := .none, intEn := 0,
    width := 0, height := 0, fmt := 0, srcBase := 0,
    tilesX := 0, tilesY := 0, tileCount := 0, tileIndex := 0,
    port := none, hidden := [], srcRace := false, sourceMem := [], memAnswers := true, rst := false,
    response := none, delivered := [], schedule := [], freeDrawn := 0,
    platform := Config.defaultPlatform }

end Sys2Proof.Machine
end

