-- ==== Sys2Proof/Machine/Flags.lean ====
section
/-! DEFINITION. The status fields and the output derived from them: codes of STATE and ERR_CODE (spec/10_state.md R24, R25,
R27), the words STATUS and INT_EN read as (R126, R128), and the level interrupt `irq` (R39, R209, R210).
The block has no arithmetic flags (R41). -/

namespace Sys2Proof.Machine

/-- The value of STATUS.STATE (R25). -/
def RunState.code : RunState → BitVec 2
  | .idle => 0
  | .run => 1
  | .done => 2
  | .error => 3

/-- The value of STATUS.ERR_CODE (R200). -/
def ErrCode.code : ErrCode → BitVec 4
  | .none => 0
  | .invalidCarrierDimensions => 1
  | .invalidFormat => 2
  | .addressRange => 3
  | .sourceReadError => 4
  | .illegalCommand => 5

/-- `t_valid`, which STATUS.TVALID reads (R24, R36). -/
def State.tValid (s : State) : Bool := s.port.isSome

/-- The word STATUS reads as (R126). -/
def statusWord (s : State) : Word :=
  (s.errCode.code ++ BitVec.ofBool s.ign ++ BitVec.ofBool s.tValid ++ s.state.code).setWidth 32

/-- INT_EN.DONE_IE (R28). -/
def State.doneIe (s : State) : Bool := s.intEn.getLsbD 0

/-- INT_EN.ERR_IE (R28). -/
def State.errIe (s : State) : Bool := s.intEn.getLsbD 1

/-- The word INT_EN reads as (R128). -/
def intEnWord (s : State) : Word :=
  (BitVec.ofBool s.errIe ++ BitVec.ofBool s.doneIe).setWidth 32

/-- The interrupt output, a level with no latch (R39). -/
def State.irq (s : State) : Bool :=
  (s.doneIe && s.state == .done) || (s.errIe && s.state == .error)

/-- The level this block drives on an input of the platform's interrupt controller: `irq` on the input IRQ_LINE (R210). -/
def State.irqOnLine (s : State) (line : Nat) : Bool :=
  s.irq && line == s.platform.irqLine

end Sys2Proof.Machine
end

