-- ==== Sys2Proof/Machine/Operands.lean ====
section
/-! DEFINITION. Operands: register fields (spec/30_encoding.md R84), the derived operands of a run (R85), the window address
of a host access, and the geometry, pixel addresses and luma of spec/42_tile_datapath.md. -/

namespace Sys2Proof.Machine

/-! ### Register fields of a DATA word (R84) -/

/-- WIDTH.W and HEIGHT.H: DATA[15:0]. -/
def dimField (d : Word) : BitVec 16 := d.extractLsb' 0 16

/-- FORMAT.CH_MODE: DATA[1:0]. -/
def chModeField (d : Word) : BitVec 2 := d.extractLsb' 0 2

/-- INT_EN: DONE_IE from DATA[0], ERR_IE from DATA[1]. -/
def intEnField (d : Word) : BitVec 2 := BitVec.ofBool (d.getLsbD 1) ++ BitVec.ofBool (d.getLsbD 0)

/-! ### The register window on the host bus (R70, R81, R215) -/

/-- The descriptor the bus adapter derives from an access at a host-bus address, or none outside the window. -/
def windowDescriptor (p : Platform) (we : Bool) (size : Size) (addr : Nat) : Option Descriptor :=
  if p.regBase ≤ addr ∧ addr < p.regBase + Config.regWindow then
    some (BitVec.ofBool we ++ size ++ BitVec.ofNat 12 (addr - p.regBase))
  else none

/-! ### The derived operands of a run (R85, R102) -/

/-- C: bytes per pixel; 3 for the reserved values too, as START computes it (DEDUCED, log entry 16). -/
def channels (fmt : BitVec 2) : Nat := if fmt = 0 then 1 else 3

/-- NBYTES = W × H × C, exact. -/
def rasterBytes (s : State) : Nat := s.width.toNat * s.height.toNat * channels s.fmt

/-- Whether an address is in the active source region of R71. -/
def inActiveRegion (s : State) (addr : Nat) : Bool :=
  decide (s.srcBase.toNat ≤ addr ∧ addr < s.srcBase.toNat + rasterBytes s)

/-! ### Geometry and pixel addresses (R150, R152) -/

/-- The tile row of tile `t`. -/
def tileRow (s : State) (t : Nat) : Nat := t / s.tilesX.toNat

/-- The tile column of tile `t`. -/
def tileCol (s : State) (t : Nat) : Nat := t % s.tilesX.toNat

/-- The raster row of sample `k = 8r + c` of tile `t`. -/
def pixelY (s : State) (t k : Nat) : Nat := Config.block * tileRow s t + k / Config.block

/-- The raster column of sample `k = 8r + c` of tile `t`. -/
def pixelX (s : State) (t k : Nat) : Nat := Config.block * tileCol s t + k % Config.block

/-- The address of the first byte of pixel (y, x), computed exactly. -/
def pixelAddr (s : State) (y x : Nat) : Nat :=
  s.srcBase.toNat + (y * s.width.toNat + x) * channels s.fmt

/-- One past the last byte of tile `t`: its last pixel has the highest address. -/
def tileEnd (s : State) (t : Nat) : Nat :=
  pixelAddr s (pixelY s t 63) (pixelX s t 63) + channels s.fmt

/-! ### Luma (R153) -/

/-- luma on exact integers, with the tie parameter. -/
def lumaNat (tie : LumaTie) (r g b : Nat) : Nat :=
  let n := 299 * r + 587 * g + 114 * b
  let q := n / 1000
  let m := n % 1000
  if 500 < m then q + 1
  else if m < 500 then q
  else match tie with
    | .halfUp => q + 1
    | .halfEven => q + q % 2

/-- luma of three samples. -/
def luma (tie : LumaTie) (r g b : Byte) : Byte :=
  BitVec.ofNat 8 (lumaNat tie r.toNat g.toNat b.toNat)

/-! ### The tile beat (R86) -/

/-- `t_data` from its samples: sample k at bits [8k+7:8k]. -/
def packSamples (bs : List Byte) : BitVec 512 :=
  bs.foldr (fun b acc => (acc <<< 8) ||| b.setWidth 512) 0

/-- Sample k of a tile, `t_data[8k+7:8k]`. -/
def Tile.sample (t : Tile) (k : Nat) : Byte := t.data.extractLsb' (8 * k) 8

/-! ### The consumer's view of a tile (R163) -/

/-- T[r][c], the sample at row r and column c of the tile. -/
def Tile.cell (t : Tile) (r c : Nat) : Byte := t.sample (Config.block * r + c)

/-- The 2×2 sub-block (i, j) of the tile, row by row. -/
def Tile.subBlock (t : Tile) (i j : Nat) : List Byte :=
  [t.cell (2 * i) (2 * j), t.cell (2 * i) (2 * j + 1), t.cell (2 * i + 1) (2 * j), t.cell (2 * i + 1) (2 * j + 1)]

/-- tileBytes: the samples from `t_data[7:0]` up to `t_data[511:504]`. -/
def Tile.bytes (t : Tile) : List Byte := (List.range 64).map t.sample

end Sys2Proof.Machine
end

