-- ==== Sys2Proof/Machine/Ops.lean ====
section
/-! DEFINITION. The named operations over source memory, the registers and the port: reading and writing memory
(spec/20_memory.md R61, R62), responding to the host (R120), the error entry `raise Error(c)` (R202) and the return from it
(R109, R208), and reset (R40, R240). -/

namespace Sys2Proof.Machine

/-! ### Source memory (R61) -/

/-- The byte stored at an address. -/
def Memory.read : List Host.Cell → Nat → Byte
  | [], _ => Config.unlistedByte
  | (k, v) :: m, a => if k = a then v else Memory.read m a

/-- Store a byte, keeping the canonical form. -/
def Memory.write : List Host.Cell → Nat → Byte → List Host.Cell
  | [], a, b => if b = Config.unlistedByte then [] else [(a, b)]
  | (k, v) :: m, a, b =>
    if a < k then
      if b = Config.unlistedByte then (k, v) :: m else (a, b) :: (k, v) :: m
    else if a = k then
      if b = Config.unlistedByte then m else (a, b) :: m
    else (k, v) :: Memory.write m a b

/-- Every address of the list is above a bound, they rise strictly, lie in the address space, and no byte is the one that an
unlisted address reads as. -/
def Memory.wfFrom : Nat → List Host.Cell → Bool
  | _, [] => true
  | low, (k, v) :: m =>
    decide (low ≤ k) && decide (k < Config.addrSpace) && v != Config.unlistedByte && Memory.wfFrom (k + 1) m

/-- The canonical form: equal memories are equal lists. -/
def Memory.wf (m : List Host.Cell) : Bool := Memory.wfFrom 0 m

/-- The platform's predicate `read_error` (R62, D22). -/
def readError (p : Platform) (a : Nat) : Bool :=
  p.errorRanges.any fun r => decide (r.1 ≤ a ∧ a ≤ r.2)

/-- The byte the memory oracle answers for read number `n` of a step (R62): any byte under `src_race`, else the byte read
ahead or the byte stored. -/
def oracleByte (s : State) (n a : Nat) : Byte :=
  if s.srcRace then Config.raceByte (s.freeDrawn + n)
  else match s.hidden.lookup a with
    | some b => b
    | none => Memory.read s.sourceMem a

/-- Whether a write at an address is the race of R74: in RUN, inside the active region. -/
def racesRun (s : State) (a : Nat) : Bool := s.state == .run && inActiveRegion s a

/-- The value a sample of an untaken tile takes in a race (R74): any byte for GRAY8, the luma of any three for RGB888, each
a free value of its own. -/
def freeSample (s : State) (n : Nat) : Byte :=
  if channels s.fmt = 1 then Config.raceByte (s.freeDrawn + n)
  else luma s.platform.lumaTie (Config.raceByte (s.freeDrawn + n)) (Config.raceByte (s.freeDrawn + (n + 1)))
    (Config.raceByte (s.freeDrawn + (n + 2)))

/-- A presented tile whose samples a race has made free; its order and sideband are unaffected (R74). -/
def raceTile (s : State) (t : Tile) : Tile :=
  { t with data := packSamples ((List.range 64).map fun k => freeSample s (3 * k)) }

/-- `MemRead(a, 1)`, read number `n` of a step; `none` is the outcome ReadError (R62). -/
def memRead (s : State) (n a : Nat) : Option Byte :=
  if readError s.platform a then none else some (oracleByte s n a)

/-! ### Host responses and register writes (R120) -/

/-- Answer the host access of this step. -/
def respond (r : BusResponse) (s : State) : State := { s with response := some r }

/-- A legal read: OKAY with RDATA, and no other effect (R69). -/
def readRegister (rdata : Word) (s : State) : Host.Outcome State Fault Refusal :=
  .next (respond (.okayRead rdata) s)

/-- A legal write to a read-only or reserved register: OKAY, and nothing is written (R120). -/
def ignoreWrite (s : State) : Host.Outcome State Fault Refusal :=
  .next (respond .okayWrite s)

/-- An illegal access: BUSERR, and no other effect (R121). -/
def refuseAccess (s : State) : Host.Outcome State Fault Refusal :=
  .next (respond .busErr s)

/-- Set STATUS.IGN (R26). -/
def setIgn (s : State) : State := { s with ign := true }

/-- A legal write to a configuration register: in RUN it is discarded and sets IGN (R26). -/
def writeConfig (f : State → State) (s : State) : Host.Outcome State Fault Refusal :=
  .next (respond .okayWrite (if s.state = .run then setIgn s else f s))

/-! ### Error entry and return (R202, R109) -/

/-- Discard the hidden state of R37. -/
def discardHidden (s : State) : State := { s with hidden := [] }

/-- Withdraw a presented tile: the port fields hold no value (R36). -/
def withdrawTile (s : State) : State := { s with port := none }

/-- `raise Error(c)`, the one error-entry primitive (R202). -/
def raiseError (c : ErrCode) (s : State) : State :=
  if s.state = .error then s
  else { withdrawTile (discardHidden s) with state := .error, errCode := c }

/-- Back to IDLE with no error and no progress: the assignments that ABORT and CLEAR_ERR share (R108, R109, R208). -/
def returnToIdle (s : State) : State :=
  { discardHidden s with state := .idle, errCode := .none, tileIndex := 0 }

/-! ### Reset (R40, R240, R241) -/

/-- Every component of R21 at its reset value, the hidden state empty and `src_race` 0.
Source memory and everything outside the block stay (R241). -/
def resetBlock (s : State) : State :=
  { s with state := .idle, ign := false, errCode := .none, intEn := 0,
           width := 0, height := 0, fmt := 0, srcBase := 0,
           tilesX := 0, tilesY := 0, tileCount := 0, tileIndex := 0,
           port := none, hidden := [], srcRace := false }

end Sys2Proof.Machine
end

