-- ==== Sys2Proof/Machine/Commands.lean ====
section
/-! DEFINITION. The meanings of the commands (spec/40_commands.md).
Each is one atomic step that answers OKAY (R100). -/

namespace Sys2Proof.Machine

/-- NOP (R101). -/
def execNop (s : State) : Host.Outcome State Fault Refusal :=
  .next (respond .okayWrite s)

/-- START's assignments before it validates (R102, R38; `src_race`: DEDUCED, log entry 14). -/
def startFresh (s : State) : State :=
  { withdrawTile (discardHidden s) with
      state := .idle, ign := false, errCode := .none, tileIndex := 0, srcRace := false }

/-- START's `fail(c)`: the geometry is zeroed, then the error is raised (R102). -/
def startFail (c : ErrCode) (s : State) : State :=
  raiseError c { s with tilesX := 0, tilesY := 0, tileCount := 0 }

/-- START's dimension check (R104). -/
def dimensionsOk (s : State) : Bool :=
  s.width.toNat % Config.block == 0 && s.height.toNat % Config.block == 0

/-- START's format check (R105). -/
def formatOk (s : State) : Bool := s.fmt == 0 || s.fmt == 1

/-- START's address-range check, exact (R106). -/
def rangeOk (s : State) : Bool :=
  !(decide (0 < rasterBytes s) && decide (Config.addrSpace < s.srcBase.toNat + rasterBytes s))

/-- START's success (R107). -/
def startRun (s : State) : State :=
  let tx := s.width.toNat / Config.block
  let ty := s.height.toNat / Config.block
  { s with tilesX := BitVec.ofNat 32 tx, tilesY := BitVec.ofNat 32 ty, tileCount := BitVec.ofNat 32 (tx * ty),
           state := bif tx * ty == 0 then .done else .run }

/-- The checks in their order, on a fresh state (R102, R205). -/
def startValidate (s : State) : State :=
  if !dimensionsOk s then startFail .invalidCarrierDimensions s
  else if !formatOk s then startFail .invalidFormat s
  else if !rangeOk s then startFail .addressRange s
  else startRun s

/-- START (R102): discarded in RUN (R103). -/
def execStart (s : State) : Host.Outcome State Fault Refusal :=
  .next (respond .okayWrite (if s.state = .run then setIgn s else startValidate (startFresh s)))

/-- ABORT (R108). -/
def execAbort (s : State) : Host.Outcome State Fault Refusal :=
  .next (respond .okayWrite { returnToIdle (withdrawTile s) with ign := false })

/-- CLEAR_ERR (R109). -/
def execClearErr (s : State) : Host.Outcome State Fault Refusal :=
  let s' : State := { s with ign := false }
  .next (respond .okayWrite (if s.state = .error then returnToIdle s' else s'))

/-- An illegal command (R110); the word is not recorded (R200). -/
def execIllegalCmd (_word : Word) (s : State) : Host.Outcome State Fault Refusal :=
  .next (respond .okayWrite (raiseError .illegalCommand s))

/-- The command a CMD word selects, performed (R100). -/
def runCommand (c : Command) (s : State) : Host.Outcome State Fault Refusal :=
  match c with
  | .nop => execNop s
  | .start => execStart s
  | .abort => execAbort s
  | .clearErr => execClearErr s
  | .illegal w => execIllegalCmd w s

end Sys2Proof.Machine
end

