-- ==== Sys2Proof/Machine/Access.lean ====
section
/-! DEFINITION. The meanings of the accesses to the register window (spec/41_register_access.md). -/

namespace Sys2Proof.Machine

/-! ### Illegal accesses (R121) -/

/-- BUSERR_SIZE. -/
def execBusErrSize (_we _half : Bool) (_offset : Offset) (s : State) : Host.Outcome State Fault Refusal :=
  refuseAccess s

/-- BUSERR_SIZE3. -/
def execBusErrSize3 (_we : Bool) (_offset : Offset) (s : State) : Host.Outcome State Fault Refusal :=
  refuseAccess s

/-- BUSERR_ALIGN1. -/
def execBusErrAlign1 (_we : Bool) (_offset : Offset) (s : State) : Host.Outcome State Fault Refusal :=
  refuseAccess s

/-- BUSERR_ALIGN2. -/
def execBusErrAlign2 (_we : Bool) (_offset : Offset) (s : State) : Host.Outcome State Fault Refusal :=
  refuseAccess s

/-! ### Reads: RDATA places each field at its bits and zeros elsewhere (R84) -/

/-- RD_ID (R122). -/
def execRdId (s : State) : Host.Outcome State Fault Refusal :=
  readRegister Config.idValue s

/-- RD_CMD (R124). -/
def execRdCmd (s : State) : Host.Outcome State Fault Refusal :=
  readRegister 0 s

/-- RD_STATUS (R126). -/
def execRdStatus (s : State) : Host.Outcome State Fault Refusal :=
  readRegister (statusWord s) s

/-- RD_INT_EN (R128). -/
def execRdIntEn (s : State) : Host.Outcome State Fault Refusal :=
  readRegister (intEnWord s) s

/-- RD_WIDTH (R130). -/
def execRdWidth (s : State) : Host.Outcome State Fault Refusal :=
  readRegister (s.width.setWidth 32) s

/-- RD_HEIGHT (R132). -/
def execRdHeight (s : State) : Host.Outcome State Fault Refusal :=
  readRegister (s.height.setWidth 32) s

/-- RD_FORMAT (R134). -/
def execRdFormat (s : State) : Host.Outcome State Fault Refusal :=
  readRegister (s.fmt.setWidth 32) s

/-- RD_SRC_BASE (R136). -/
def execRdSrcBase (s : State) : Host.Outcome State Fault Refusal :=
  readRegister s.srcBase s

/-- RD_TILES_X (R138). -/
def execRdTilesX (s : State) : Host.Outcome State Fault Refusal :=
  readRegister s.tilesX s

/-- RD_TILES_Y (R139). -/
def execRdTilesY (s : State) : Host.Outcome State Fault Refusal :=
  readRegister s.tilesY s

/-- RD_TILE_COUNT (R140). -/
def execRdTileCount (s : State) : Host.Outcome State Fault Refusal :=
  readRegister s.tileCount s

/-- RD_TILE_INDEX (R141). -/
def execRdTileIndex (s : State) : Host.Outcome State Fault Refusal :=
  readRegister s.tileIndex s

/-- RD_RESERVED (R146). -/
def execRdReserved (_offset : Offset) (s : State) : Host.Outcome State Fault Refusal :=
  readRegister 0 s

/-! ### Writes that have an effect -/

/-- WR_CMD: the command of the DATA word (R125). -/
def execWrCmd (d : Word) (s : State) : Host.Outcome State Fault Refusal :=
  runCommand (decodeCommand d) s

/-- WR_INT_EN: accepted in every state (R129). -/
def execWrIntEn (d : Word) (s : State) : Host.Outcome State Fault Refusal :=
  .next (respond .okayWrite { s with intEn := intEnField d })

/-- WR_WIDTH (R131). -/
def execWrWidth (d : Word) (s : State) : Host.Outcome State Fault Refusal :=
  writeConfig (fun s => { s with width := dimField d }) s

/-- WR_HEIGHT (R133). -/
def execWrHeight (d : Word) (s : State) : Host.Outcome State Fault Refusal :=
  writeConfig (fun s => { s with height := dimField d }) s

/-- WR_FORMAT (R135). -/
def execWrFormat (d : Word) (s : State) : Host.Outcome State Fault Refusal :=
  writeConfig (fun s => { s with fmt := chModeField d }) s

/-- WR_SRC_BASE (R137). -/
def execWrSrcBase (d : Word) (s : State) : Host.Outcome State Fault Refusal :=
  writeConfig (fun s => { s with srcBase := d }) s

/-! ### Writes to read-only and reserved registers -/

/-- WR_ID (R123). -/
def execWrId (_d : Word) (s : State) : Host.Outcome State Fault Refusal :=
  ignoreWrite s

/-- WR_STATUS (R127). -/
def execWrStatus (_d : Word) (s : State) : Host.Outcome State Fault Refusal :=
  ignoreWrite s

/-- WR_TILES_X (R142). -/
def execWrTilesX (_d : Word) (s : State) : Host.Outcome State Fault Refusal :=
  ignoreWrite s

/-- WR_TILES_Y (R143). -/
def execWrTilesY (_d : Word) (s : State) : Host.Outcome State Fault Refusal :=
  ignoreWrite s

/-- WR_TILE_COUNT (R144). -/
def execWrTileCount (_d : Word) (s : State) : Host.Outcome State Fault Refusal :=
  ignoreWrite s

/-- WR_TILE_INDEX (R145). -/
def execWrTileIndex (_d : Word) (s : State) : Host.Outcome State Fault Refusal :=
  ignoreWrite s

/-- WR_RESERVED (R147). -/
def execWrReserved (_offset : Offset) (_d : Word) (s : State) : Host.Outcome State Fault Refusal :=
  ignoreWrite s

end Sys2Proof.Machine
end

