-- ==== Sys2Proof/Machine/Dispatch.lean ====
section
/-! DEFINITION. exec: one arm for every constructor of Instr, each one call of that instruction's own meaning. -/

namespace Sys2Proof.Machine

def exec (i : Instr) (s : State) : Host.Outcome State Fault Refusal :=
  match i with
  | .busErrSize we half offset => Sys2Proof.Machine.execBusErrSize we half offset s
  | .busErrSize3 we offset => Sys2Proof.Machine.execBusErrSize3 we offset s
  | .busErrAlign1 we offset => Sys2Proof.Machine.execBusErrAlign1 we offset s
  | .busErrAlign2 we offset => Sys2Proof.Machine.execBusErrAlign2 we offset s
  | .rdId => Sys2Proof.Machine.execRdId s
  | .wrId d => Sys2Proof.Machine.execWrId d s
  | .rdCmd => Sys2Proof.Machine.execRdCmd s
  | .wrCmd d => Sys2Proof.Machine.execWrCmd d s
  | .rdStatus => Sys2Proof.Machine.execRdStatus s
  | .wrStatus d => Sys2Proof.Machine.execWrStatus d s
  | .rdIntEn => Sys2Proof.Machine.execRdIntEn s
  | .wrIntEn d => Sys2Proof.Machine.execWrIntEn d s
  | .rdWidth => Sys2Proof.Machine.execRdWidth s
  | .wrWidth d => Sys2Proof.Machine.execWrWidth d s
  | .rdHeight => Sys2Proof.Machine.execRdHeight s
  | .wrHeight d => Sys2Proof.Machine.execWrHeight d s
  | .rdFormat => Sys2Proof.Machine.execRdFormat s
  | .wrFormat d => Sys2Proof.Machine.execWrFormat d s
  | .rdSrcBase => Sys2Proof.Machine.execRdSrcBase s
  | .wrSrcBase d => Sys2Proof.Machine.execWrSrcBase d s
  | .rdTilesX => Sys2Proof.Machine.execRdTilesX s
  | .wrTilesX d => Sys2Proof.Machine.execWrTilesX d s
  | .rdTilesY => Sys2Proof.Machine.execRdTilesY s
  | .wrTilesY d => Sys2Proof.Machine.execWrTilesY d s
  | .rdTileCount => Sys2Proof.Machine.execRdTileCount s
  | .wrTileCount d => Sys2Proof.Machine.execWrTileCount d s
  | .rdTileIndex => Sys2Proof.Machine.execRdTileIndex s
  | .wrTileIndex d => Sys2Proof.Machine.execWrTileIndex d s
  | .rdReserved offset => Sys2Proof.Machine.execRdReserved offset s
  | .wrReserved offset d => Sys2Proof.Machine.execWrReserved offset d s
  | .nop => Sys2Proof.Machine.execNop s
  | .start => Sys2Proof.Machine.execStart s
  | .abort => Sys2Proof.Machine.execAbort s
  | .clearErr => Sys2Proof.Machine.execClearErr s
  | .illegalCmd word => Sys2Proof.Machine.execIllegalCmd word s

end Sys2Proof.Machine
end

