-- ==== Sys2Proof/Machine/Engine.lean ====
section
/-! DEFINITION. The engine's and the consumer's steps (spec/42_tile_datapath.md): they are not host instructions. -/

namespace Sys2Proof.Machine

/-- All values of a list of answers, or none if one is missing. -/
def collect : List (Option Byte) → Option (List Byte)
  | [] => some []
  | none :: _ => none
  | some b :: rest =>
    match collect rest with
    | some bs => some (b :: bs)
    | none => none

/-- The sample of pixel (y, x), its reads numbered from `n`; `none` if a read answers ReadError (R155). -/
def sampleAt (s : State) (n y x : Nat) : Option Byte :=
  let a := pixelAddr s y x
  if channels s.fmt = 1 then memRead s n a
  else
    match memRead s n a, memRead s (n + 1) (a + 1), memRead s (n + 2) (a + 2) with
    | some r, some g, some b => some (luma s.platform.lumaTie r g b)
    | _, _, _ => none

/-- The value of tile `t` as its 64 samples in row-major order, or none (R155). -/
def tileSamples (s : State) (t : Nat) : Option (List Byte) :=
  collect ((List.range 64).map fun k => sampleAt s (3 * k) (pixelY s t k) (pixelX s t k))

/-- The engine is enabled (R157). -/
def engineEnabled (s : State) : Bool :=
  s.state == .run && !s.tValid && decide (s.tileIndex.toNat < s.tileCount.toNat)

/-- Step the count of free values past the reads of one tile. -/
def drawTileReads (s : State) : State :=
  { s with freeDrawn := if s.srcRace then s.freeDrawn + 192 else s.freeDrawn }

/-- ENGINE_LOAD: present the tile whose samples are `bs` (R158). -/
def engineLoad (bs : List Byte) (s : State) : State :=
  let t := s.tileIndex.toNat
  { drawTileReads s with
      port := some
        { data  := packSamples bs
          index := s.tileIndex
          row   := BitVec.ofNat 16 (tileRow s t)
          col   := BitVec.ofNat 16 (tileCol s t)
          last  := t + 1 == s.tileCount.toNat } }

/-- The engine's step: ENGINE_LOAD if the next tile has a value, else ENGINE_FAULT (R157, R158, R160); nothing if it is not
enabled, or while source memory does not answer (R255; log entry 22).
The two faults are of states that no run reaches (DESIGN CHOICE, safe, log entry 11). -/
def engineStep (s : State) : Host.Outcome State Fault Refusal :=
  if engineEnabled s && s.memAnswers then
    if s.tilesX = 0 then .fault .noTileGrid
    else if Config.addrSpace < tileEnd s s.tileIndex.toNat then .fault .addressOutOfSpace
    else
      match tileSamples s s.tileIndex.toNat with
      | some bs => .next (engineLoad bs s)
      | none => .next (raiseError .sourceReadError s)
  else .next s

/-- A read ahead of need: in RUN and inside the active region the engine may read any byte any number of times (R71, R77),
while source memory answers (R255; log entry 22); a ReadError is not kept, since it is reported only when its tile would be
presented (R160; DEDUCED, log entry 9). -/
def readAhead (a : Word) (s : State) : State :=
  if s.state == .run && s.memAnswers && inActiveRegion s a.toNat then
    match memRead s 0 a.toNat with
    | some b =>
      { s with hidden := (a.toNat, b) :: s.hidden,
               freeDrawn := if s.srcRace then s.freeDrawn + 1 else s.freeDrawn }
    | none => s
  else s

/-- TAKE: the consumer takes the presented tile (R159).
The hidden state stays until the next START (R37; DEDUCED, log entry 10). -/
def takeTile (t : Tile) (s : State) : State :=
  let n := s.tileIndex + 1
  { s with port := none, delivered := t :: s.delivered, tileIndex := n,
           state := if n = s.tileCount then .done else s.state }

/-- A consumer step: a transfer happens where `t_valid` and `t_ready` are both 1 (R87, R159). -/
def consumerStep (tReady : Bool) (s : State) : State :=
  match s.port with
  | some t => if tReady then takeTile t s else s
  | none => s

/-- The consumer reads the port fields outside a transfer: a fault while they hold no value (R36, R251;
DEDUCED, log entry 12). -/
def samplePort (s : State) : Host.Outcome State Fault Refusal :=
  match s.port with
  | some _ => .next s
  | none => .fault .portHasNoValue

/-- Some agent other than the block writes a byte of source memory: in RUN, inside the active region, that is the race of R74,
which `src_race` records (R38), and the samples of a presented tile become free values with those of the tiles to come
(DEDUCED, log entries 8 and 19). -/
def pokeByte (a : Word) (b : Byte) (s : State) : State :=
  { s with sourceMem := Memory.write s.sourceMem a.toNat b,
           srcRace := s.srcRace || racesRun s a.toNat,
           port := if racesRun s a.toNat then s.port.map (raceTile s) else s.port,
           freeDrawn := if racesRun s a.toNat then s.freeDrawn + 192 else s.freeDrawn }

/-- Source memory begins or ceases to answer reads (R255). -/
def setMemAnswers (level : Bool) (s : State) : State := { s with memAnswers := level }

end Sys2Proof.Machine
end

