-- ==== Sys2Proof/Machine/Agents.lean ====
section
/-! DEFINITION. The agents' steps and their interleaving (spec/00_scope.md R12, spec/60_exceptions.md R206, R218): the
schedule says which agent moves next, and reset takes precedence over every agent of the block (R240). -/

namespace Sys2Proof.Machine

/-- A host access: decode the host's word and run its instruction. -/
def hostAccess (w : HostWord) (s : State) : Host.Outcome State Fault Refusal :=
  exec (decodeWord w) s

/-- An access at a host-bus address: outside the register window it is not this block's (R60, R215;
DEDUCED, log entry 17). -/
def hostBusAccess (we : Bool) (size : Size) (addr : Nat) (data : Word) (s : State) :
    Host.Outcome State Fault Refusal :=
  match windowDescriptor s.platform we size addr with
  | some x => hostAccess (.bus x data) s
  | none => .next s

/-- The level of `rst` changes: every component of the block is at its reset value from the assertion on, and on release
(R240; DEDUCED, log entry 7). -/
def setResetPin (level : Bool) (s : State) : State :=
  if level || s.rst then { resetBlock s with rst := level } else s

/-- One event of the schedule.
While `rst` = 1 no step of the host, the engine or the consumer affects the block (R206, R240; DEDUCED, log entry 7). -/
def runEvent (e : Event) (s : State) : Host.Outcome State Fault Refusal :=
  match e with
  | .resetPin level => .next (setResetPin level s)
  | .poke a b => .next (pokeByte a b s)
  | .memoryAnswers level => .next (setMemAnswers level s)
  | .host w => if s.rst then .next s else hostAccess w s
  | .hostBus we size addr data => if s.rst then .next s else hostBusAccess we size addr data s
  | .engine => if s.rst then .next s else engineStep s
  | .readAhead a => if s.rst then .next s else .next (readAhead a s)
  | .consumer tReady => if s.rst then .next s else .next (consumerStep tReady s)
  | .samplePort => if s.rst then .next s else samplePort s

/-- The step when no event is left: only the block's own engine can move, and an enabled engine step is taken if source
memory answers (R255; DESIGN CHOICE, log entry 6). -/
def idleStep (s : State) : Host.Outcome State Fault Refusal :=
  if s.rst then .next s else engineStep s

/-- The next event of the interleaving, and the state without it. -/
def nextEvent (s : State) : Option (Event × State) :=
  match s.schedule with
  | e :: rest => some (e, { s with schedule := rest })
  | [] => none

/-- Put a host word in front of the schedule, with `rst` = 0 so that its access is made. -/
def scheduleFirst (w : HostWord) (s : State) : State :=
  { s with rst := false, schedule := .host w :: s.schedule }

end Sys2Proof.Machine
end

