-- ==== Sys2Proof/Machine/Step.lean ====
section
/-! DEFINITION. One step of the machine: the next event of the interleaving (spec/00_scope.md R12). -/

namespace Sys2Proof.Machine

/-- One step. -/
def step (s : State) : Host.Outcome State Fault Refusal :=
  match nextEvent s with
  | some (e, s') => runEvent e s'
  | none => idleStep s

/-- The state whose very next step is the host access of this word (log entry 5); a number that is no word of a format leaves
the state as it is. -/
def State.withFetchWord (s : State) (nbits w : Nat) : State :=
  match hostWordOfBits nbits w with
  | .ok h => scheduleFirst h s
  | .error _ => s

end Sys2Proof.Machine
end

