-- ==== Sys2Proof/Machine/Pseudo.lean ====
section
/-! DEFINITION. The pseudo-instructions of host programs (spec/30_encoding.md R91), as host words. -/

namespace Sys2Proof.Machine

/-- `NOP`. -/
def pseudoNop : HostWord := writeWord 0x004 0

/-- `START`. -/
def pseudoStart : HostWord := writeWord 0x004 1

/-- `ABORT`. -/
def pseudoAbort : HostWord := writeWord 0x004 2

/-- `CLEAR_ERR`. -/
def pseudoClearErr : HostWord := writeWord 0x004 3

/-- `CONFIG w, h, fmt, base`. -/
def pseudoConfig (w h fmt base : Word) : List HostWord :=
  [writeWord 0x010 w, writeWord 0x014 h, writeWord 0x018 fmt, writeWord 0x01C base]

/-- A list of host accesses as a schedule. -/
def hostSchedule (ws : List HostWord) : List Event := ws.map .host

/-- Whether the last response is a STATUS word that shows RUN. -/
def sawRun (s : State) : Bool :=
  match s.response with
  | some (.okayRead w) => w.extractLsb' 0 2 == 1
  | _ => false

/-- `WAIT_DONE`: repeat `RD STATUS` until STATUS[1:0] ≠ 1, with fuel; one step of the schedule falls between two polls.
A poll while `rst` = 1 is dropped like every host access then, so the wait goes on (DESIGN CHOICE, log entry 21). -/
def waitDone : Nat → State → Host.Outcome State Fault Refusal
  | 0, s => .next s
  | n + 1, s =>
    match runEvent (.host (readWord 0x008)) s with
    | .next t =>
      if t.rst || sawRun t then
        match step t with
        | .next u => waitDone n u
        | .fault f => .fault f
        | .refused r => .refused r
      else .next t
    | .fault f => .fault f
    | .refused r => .refused r

end Sys2Proof.Machine
end

