-- ==== Sys2Proof/Safety.lean ====
section
/-! DEFINITION. What a safe run is, and the terms the claims use: the invariants of the block, the raster as source memory
holds it, and what a tile of it is. -/

namespace Sys2Proof.Machine

/-- The step goes on: no fault and no refusal. -/
def StepGoesOn (s : State) : Prop := ∃ t, step s = .next t

/-- A state right after reset with a platform, a source memory that answers or not, and a schedule of the agents' steps placed
beside the block (R240: reset does not fix them). -/
def PoweredUp (s : State) : Prop :=
  ∃ p m l es, Memory.wf m = true ∧
    s = { State.reset with platform := p, sourceMem := m, memAnswers := l, schedule := es }

/-! ### Invariants -/

/-- Every component of the table of R40 is at its reset value, the hidden state is empty and `src_race` is 0. -/
def HoldsResetValues (s : State) : Prop :=
  s.state = .idle ∧ s.ign = false ∧ s.errCode = .none ∧ s.intEn = 0 ∧ s.width = 0 ∧ s.height = 0 ∧ s.fmt = 0 ∧
    s.srcBase = 0 ∧ s.tilesX = 0 ∧ s.tilesY = 0 ∧ s.tileCount = 0 ∧ s.tileIndex = 0 ∧ s.port = none ∧ s.hidden = [] ∧
    s.srcRace = false

/-- What STATE, TILE_INDEX, the geometry and the port always say of each other (R25, R27, R33, R34, R35, R36). -/
structure BlockInv (s : State) : Prop where
  /-- ERR_CODE is 0 exactly outside ERROR (R27). -/
  errCode_none_iff : s.errCode = .none ↔ s.state ≠ .error
  /-- A tile is presented only in RUN (R25). -/
  presented_in_run : s.port.isSome = true → s.state = .run
  /-- IDLE has no progress and no ignored access (R25, R26). -/
  idle_fresh : s.state = .idle → s.tileIndex = 0 ∧ s.ign = false
  /-- In RUN tiles remain (R25). -/
  run_remaining : s.state = .run → s.tileIndex.toNat < s.tileCount.toNat
  /-- In DONE every tile was taken (R25). -/
  done_all_taken : s.state = .done → s.tileIndex = s.tileCount
  /-- TILE_INDEX never exceeds TILE_COUNT (R35). -/
  index_le_count : s.tileIndex.toNat ≤ s.tileCount.toNat
  /-- TILES_X and TILES_Y are at most 8191 (R8, R33). -/
  grid_bound : s.tilesX.toNat ≤ 8191 ∧ s.tilesY.toNat ≤ 8191
  /-- TILE_COUNT = TILES_X × TILES_Y (R34). -/
  count_eq : s.tileCount.toNat = s.tilesX.toNat * s.tilesY.toNat
  /-- In RUN the configuration is one that START accepted (R26, R102). -/
  run_config : s.state = .run →
    s.width.toNat = 8 * s.tilesX.toNat ∧ s.height.toNat = 8 * s.tilesY.toNat ∧ (s.fmt = 0 ∨ s.fmt = 1) ∧
      s.srcBase.toNat + rasterBytes s ≤ 2 ^ 32
  /-- The presented tile is the one with index TILE_INDEX (R86, R158). -/
  presented_is_next : ∀ t, s.port = some t →
    t.index = s.tileIndex ∧ t.row.toNat = s.tileIndex.toNat / s.tilesX.toNat ∧
      t.col.toNat = s.tileIndex.toNat % s.tilesX.toNat ∧
      (t.last = true ↔ s.tileIndex.toNat + 1 = s.tileCount.toNat)
  /-- While `rst` = 1 the block holds its reset values (R240). -/
  reset_held : s.rst = true → HoldsResetValues s

/-- In a run without a race the bytes read ahead are the bytes stored, and lie in the active region (R37, R71, R77). -/
def HiddenInv (s : State) : Prop :=
  s.state = .run → s.srcRace = false →
    ∀ c ∈ s.hidden, inActiveRegion s c.1 = true ∧ Memory.read s.sourceMem c.1 = c.2

/-- The tiles taken in the current run arrived in the order 0, 1, …, TILE_INDEX − 1 (R76): read from the newest back. -/
def DeliveredInOrder (s : State) : Prop :=
  (s.delivered.take s.tileIndex.toNat).map (fun t => t.index.toNat) = (List.range s.tileIndex.toNat).reverse

/-! ### The raster and its tiles -/

/-- The sample of pixel (y, x) of the raster as source memory holds it (R64, R152, R155). -/
def rasterSample (s : State) (y x : Nat) : Byte :=
  let base := s.srcBase.toNat
  let p := y * s.width.toNat + x
  if s.fmt = 0 then Memory.read s.sourceMem (base + p)
  else luma s.platform.lumaTie (Memory.read s.sourceMem (base + 3 * p))
    (Memory.read s.sourceMem (base + 3 * p + 1)) (Memory.read s.sourceMem (base + 3 * p + 2))

/-- A tile carries the samples of tile `n` of the raster (R150, R155). -/
def CarriesTile (s : State) (n : Nat) (t : Tile) : Prop :=
  ∀ r c, r < 8 → c < 8 →
    t.cell r c = rasterSample s (8 * (n / s.tilesX.toNat) + r) (8 * (n % s.tilesX.toNat) + c)

/-- In a run without a race, the presented tile and every tile taken so far carry the raster's samples: the tile taken `k`
transfers before the last one is tile TILE_INDEX − 1 − k. -/
def DeliversRaster (s : State) : Prop :=
  s.state = .run → s.srcRace = false →
    (∀ t, s.port = some t → CarriesTile s s.tileIndex.toNat t) ∧
    ∀ k t, k < s.tileIndex.toNat → s.delivered[k]? = some t → CarriesTile s (s.tileIndex.toNat - 1 - k) t

/-- The `j`-th byte of pixel `k` of tile `n` answers ReadError (R62, R155). -/
def TileByteFails (s : State) (n k j : Nat) : Prop :=
  readError s.platform (pixelAddr s (pixelY s n k) (pixelX s n k) + j) = true

/-- Every byte of tile `n` can be read. -/
def TileReadable (s : State) (n : Nat) : Prop :=
  ∀ k j, k < 64 → j < channels s.fmt → ¬ TileByteFails s n k j

/-- `n` rounds of one engine step and one transfer (R164). -/
def loadTakeRounds : Nat → List Event
  | 0 => []
  | n + 1 => .engine :: .consumer true :: loadTakeRounds n

/-! ### What a register reads as (R70, R84), by offset -/

/-- The number of each state in STATUS.STATE (R25). -/
def stateNumber (r : RunState) : Nat :=
  match r with
  | .idle => 0
  | .run => 1
  | .done => 2
  | .error => 3

/-- The number of each error in STATUS.ERR_CODE (R27, R200). -/
def errorNumber (c : ErrCode) : Nat :=
  match c with
  | .none => 0
  | .invalidCarrierDimensions => 1
  | .invalidFormat => 2
  | .addressRange => 3
  | .sourceReadError => 4
  | .illegalCommand => 5

/-- RDATA of a read at an aligned offset, each register a sum of its fields at their bits. -/
def registerWord (o : Offset) (s : State) : Nat :=
  match o.toNat with
  | 0x000 => 0xB10C0108
  | 0x008 =>
    stateNumber s.state + (if s.port.isSome then 4 else 0) + (if s.ign then 8 else 0) + 16 * errorNumber s.errCode
  | 0x00C => (if s.doneIe then 1 else 0) + (if s.errIe then 2 else 0)
  | 0x010 => s.width.toNat
  | 0x014 => s.height.toNat
  | 0x018 => s.fmt.toNat
  | 0x01C => s.srcBase.toNat
  | 0x020 => s.tilesX.toNat
  | 0x024 => s.tilesY.toNat
  | 0x028 => s.tileCount.toNat
  | 0x02C => s.tileIndex.toNat
  | _ => 0

/-- The rows whose instruction may change STATE or ERR_CODE: a write to CMD, and the commands (R24). -/
def isCommand (i : Instr) : Bool :=
  match i with
  | .wrCmd _ => true
  | .start => true
  | .abort => true
  | .clearErr => true
  | .illegalCmd _ => true
  | _ => false

end Sys2Proof.Machine
end

