-- ==== Sys2Proof/Certificates/Slice0/Obligations.lean ====
section
/-! DEFINITION. The statements about the block. Each docstring names the rules of spec/ it formalises. -/

open Sys2Proof Sys2Proof.Machine

namespace Sys2Proof.Claims

/-- The next state of an instruction, with its response. -/
abbrev Answers (i : Instr) (s : State) (r : BusResponse) (t : State) : Prop :=
  exec i s = .next { t with response := some r }

/-- A read that answers `w` and changes nothing else. -/
abbrev Reads (i : Instr) (s : State) (w : Word) : Prop := Answers i s (.okayRead w) s

/-- A read descriptor selects its row, whatever is on the data lines (R81, R89). -/
abbrev ReadRow (x : Descriptor) (i : Instr) : Prop := ∀ d, decodeWord (.bus x d) = i

/-- A write descriptor selects its row with its DATA (R81, R89). -/
abbrev WriteRow (x : Descriptor) (i : Word → Instr) : Prop := ∀ d, decodeWord (.bus x d) = i d

/-- START's next state after a failed check (R102): the error with the geometry zeroed, the configuration kept.
`r` is what `src_race` is afterwards. -/
def failedStart (c : ErrCode) (r : Bool) (s : State) : State :=
  { s with state := .error, errCode := c, ign := false, tilesX := 0, tilesY := 0, tileCount := 0, tileIndex := 0,
           port := none, hidden := [], srcRace := r }

/-- START's next state after its checks pass (R102, R107), for the given geometry. -/
def startedRun (tx ty : Nat) (s : State) : State :=
  { s with state := (if tx * ty = 0 then .done else .run), errCode := .none, ign := false,
           tilesX := BitVec.ofNat 32 tx, tilesY := BitVec.ofNat 32 ty, tileCount := BitVec.ofNat 32 (tx * ty),
           tileIndex := 0, port := none, hidden := [], srcRace := false }

/-- The sideband of the tile with index `n` (R86, R158). -/
def Sideband (s : State) (n : Nat) (t : Tile) : Prop :=
  t.index.toNat = n ∧ t.row.toNat = n / s.tilesX.toNat ∧ t.col.toNat = n % s.tilesX.toNat ∧
    (t.last = true ↔ n + 1 = s.tileCount.toNat)

/-- The samples of a tile are free values of their own, drawn from `s` (R74): any byte for GRAY8, the luma of any three for
RGB888. -/
def FreeSamples (s : State) (tile : Tile) : Prop :=
  ∀ r c, r < 8 → c < 8 →
    (s.fmt = 0 → tile.cell r c = Config.raceByte (s.freeDrawn + 3 * (8 * r + c))) ∧
    (s.fmt = 1 → tile.cell r c = luma s.platform.lumaTie
      (Config.raceByte (s.freeDrawn + 3 * (8 * r + c)))
      (Config.raceByte (s.freeDrawn + 3 * (8 * r + c) + 1))
      (Config.raceByte (s.freeDrawn + 3 * (8 * r + c) + 2)))

/-- A write at the address is the race of R74: STATE = RUN and the byte is in the active source region (R38, R71). -/
def IsRace (s : State) (a : Nat) : Prop :=
  s.state = .run ∧ s.srcBase.toNat ≤ a ∧
    a < s.srcBase.toNat + s.width.toNat * s.height.toNat * channels s.fmt

/-- The engine is enabled (R157). -/
def EngineReady (s : State) : Prop :=
  s.state = .run ∧ s.port = none ∧ s.tileIndex.toNat < s.tileCount.toNat

/-- The instruction is ABORT or an illegal command, or a write to CMD of one of them: it withdraws a presented tile (R36). -/
def withdraws (i : Instr) : Bool :=
  match i with
  | .abort => true
  | .illegalCmd _ => true
  | .wrCmd d => d == 2 || decide (3 < d.toNat)
  | _ => false

/-- The instruction is one of those whose access is ignored in RUN and sets IGN (R26). -/
def ignoredInRun (i : Instr) : Bool :=
  match i with
  | .wrWidth _ => true
  | .wrHeight _ => true
  | .wrFormat _ => true
  | .wrSrcBase _ => true
  | .start => true
  | .wrCmd d => d == 1
  | _ => false

/-- The instruction the next event presents to the block, if it is a host access inside the window. -/
def nextInstr (s : State) : Option Instr :=
  match s.schedule with
  | .host w :: _ => some (decodeWord w)
  | .hostBus we size addr d :: _ => (windowDescriptor s.platform we size addr).map fun x => decodeBus x d
  | _ => none

end Sys2Proof.Claims

open Sys2Proof.Claims

/-! ### Encoding -/

/-- R81, R83, R89: decoding the word of a well-formed instruction gives it back, with every operand. -/
def Obligations.DecodeEncodeRoundTrip : Prop :=
  ∀ i : Instr, i.wf = true → decodeWord (encode i) = i

/-- R89: every descriptor and every CMD word decodes to a well-formed instruction whose own word it is; the DATA of an access
that is no legal write is the only thing not kept. -/
def Obligations.EveryWordDecodesAndReencodes : Prop :=
  (∀ x d, (decodeBus x d).wf = true ∧
    encode (decodeBus x d) =
      .bus x (if descWe x = true ∧ descSize x = 2 ∧ (descOffset x).extractLsb' 0 2 = 0 then d else 0)) ∧
  (∀ w, (decodeCmd w).wf = true ∧ encode (decodeCmd w) = .cmd w)

/-- R88, R89: the row a word decodes to has, in spec/opcode_table.json, a mask and match that the word fits. -/
def Obligations.DecodedRowFitsOpcodeTable : Prop :=
  ∀ h : HostWord, (decodeWord h).row.fits h = true

/-- R81, R83, R90: words written out bit by bit from the spec's formats decode to the instructions they stand for. -/
def Obligations.WrittenOutWordsDecode : Prop :=
  decodeWord (.bus 0b0_00_000000000100 1) = .busErrSize false false 0x004 ∧
  decodeWord (.bus 0b0_11_000000001000 0) = .busErrSize3 false 0x008 ∧
  decodeWord (.bus 0b1_10_000000000101 0) = .busErrAlign1 true 0x005 ∧
  decodeWord (.bus 0b0_10_000000000110 0) = .busErrAlign2 false 0x006 ∧
  decodeWord (.bus 0b0_10_000000001000 0) = .rdStatus ∧
  decodeWord (.bus 0b1_10_000000010000 640) = .wrWidth 640 ∧
  decodeWord (.bus 0b1_10_000000000100 1) = .wrCmd 1 ∧
  decodeWord (.bus 0b0_10_111111111100 0) = .rdReserved 0xFFC ∧
  decodeWord (.cmd 0x00000001) = .start ∧
  decodeWord (.cmd 0x00000011) = .illegalCmd 0x11

/-! ### Steps -/

/-- R12, R100, R120: while `rst` = 0 a step whose next event is a host word runs the instruction the word decodes to, and that
instruction is well formed. -/
def Obligations.StepRunsDecodedInstruction : Prop :=
  ∀ s w rest, s.rst = false → s.schedule = .host w :: rest →
    (decodeWord w).wf = true ∧ step s = exec (decodeWord w) { s with schedule := rest }

/-- R60, R81, R215: an access at the host-bus address REG_BASE + OFFSET is the access of that offset, and an access outside
the window is none of the block's. -/
def Obligations.HostBusAccessUsesTheWindow : Prop :=
  ∀ s we size addr d rest, s.rst = false → s.schedule = .hostBus we size addr d :: rest →
    (∀ o : Offset, addr = s.platform.regBase + o.toNat →
      step s = exec (decodeBus (descriptor we size o) d) { s with schedule := rest }) ∧
    (addr < s.platform.regBase ∨ s.platform.regBase + 4096 ≤ addr → step s = .next { s with schedule := rest })

/-! ### Register accesses -/

/-- R121: every illegal access answers BUSERR and changes no state: by descriptor, and for each of the four rows. -/
def Obligations.IllegalAccessAnswersBusErr : Prop :=
  (∀ x d s, descSize x ≠ 2 ∨ (descOffset x).extractLsb' 0 2 ≠ 0 → Answers (decodeBus x d) s .busErr s) ∧
  (∀ we half o s, Answers (.busErrSize we half o) s .busErr s) ∧
  (∀ we o s, Answers (.busErrSize3 we o) s .busErr s) ∧
  (∀ we o s, Answers (.busErrAlign1 we o) s .busErr s) ∧
  (∀ we o s, Answers (.busErrAlign2 we o) s .busErr s)

/-- R126, with the numbers of R25 and R200: RD_STATUS answers the word with STATE at [1:0], TVALID at [2], IGN at [3],
ERR_CODE at [7:4] and zeros above, and changes nothing. -/
def Obligations.StatusReadLayout : Prop :=
  ReadRow 0x2008 .rdStatus ∧
  ∀ s, ∃ w, Reads .rdStatus s w ∧
    (w.extractLsb' 0 2).toNat = stateNumber s.state ∧ (w.getLsbD 2 = true ↔ s.port ≠ none) ∧ w.getLsbD 3 = s.ign ∧
    (w.extractLsb' 4 4).toNat = errorNumber s.errCode ∧ w.extractLsb' 8 24 = 0

/-- R128, R130, R132, R134, R136: the reads of INT_EN, WIDTH, HEIGHT, FORMAT and SRC_BASE answer the field with zeros in
every reserved bit, and change nothing. -/
def Obligations.ConfigurationReads : Prop :=
  (ReadRow 0x200C .rdIntEn ∧ ReadRow 0x2010 .rdWidth ∧ ReadRow 0x2014 .rdHeight ∧ ReadRow 0x2018 .rdFormat ∧
    ReadRow 0x201C .rdSrcBase) ∧
  ∀ s, (∃ w, Reads .rdIntEn s w ∧ w.getLsbD 0 = s.doneIe ∧ w.getLsbD 1 = s.errIe ∧ w.extractLsb' 2 30 = 0) ∧
    (∃ w, Reads .rdWidth s w ∧ w.toNat = s.width.toNat) ∧
    (∃ w, Reads .rdHeight s w ∧ w.toNat = s.height.toNat) ∧
    (∃ w, Reads .rdFormat s w ∧ w.toNat = s.fmt.toNat) ∧
    (∃ w, Reads .rdSrcBase s w ∧ w = s.srcBase)

/-- R138 to R141: the reads of TILES_X, TILES_Y, TILE_COUNT and TILE_INDEX answer the register and change nothing. -/
def Obligations.GeometryAndProgressReads : Prop :=
  (ReadRow 0x2020 .rdTilesX ∧ ReadRow 0x2024 .rdTilesY ∧ ReadRow 0x2028 .rdTileCount ∧ ReadRow 0x202C .rdTileIndex) ∧
  ∀ s, Reads .rdTilesX s s.tilesX ∧ Reads .rdTilesY s s.tilesY ∧ Reads .rdTileCount s s.tileCount ∧
    Reads .rdTileIndex s s.tileIndex

/-- R122, R124, R146: ID reads 0xB10C0108, CMD and every reserved register read 0, in every state, and nothing changes. -/
def Obligations.ConstantReads : Prop :=
  (ReadRow 0x2000 .rdId ∧ ReadRow 0x2004 .rdCmd ∧
    ∀ o : Offset, 0x030 ≤ o.toNat → o.toNat % 4 = 0 → ReadRow (0x2000 ||| o.setWidth 15) (.rdReserved o)) ∧
  ∀ s, Reads .rdId s 0xB10C0108 ∧ Reads .rdCmd s 0 ∧ ∀ o, Reads (.rdReserved o) s 0

/-- R69, R70, R84: a 4-byte read at any aligned offset answers OKAY with the word of the register that the map has there, 0
for a reserved one, and has no side effect. -/
def Obligations.AlignedReadAnswersTheMappedRegister : Prop :=
  ∀ (o : Offset) d s, o.extractLsb' 0 2 = 0 →
    ∃ w, Reads (decodeBus (descriptor false 2 o) d) s w ∧ w.toNat = registerWord o s

/-- R123, R127, R142 to R145, R147: a write to a read-only or reserved register answers OKAY and changes nothing, in every
state. -/
def Obligations.ReadOnlyWritesChangeNothing : Prop :=
  (WriteRow 0x6000 .wrId ∧ WriteRow 0x6008 .wrStatus ∧ WriteRow 0x6020 .wrTilesX ∧ WriteRow 0x6024 .wrTilesY ∧
    WriteRow 0x6028 .wrTileCount ∧ WriteRow 0x602C .wrTileIndex ∧
    ∀ o : Offset, 0x030 ≤ o.toNat → o.toNat % 4 = 0 → WriteRow (0x6000 ||| o.setWidth 15) (.wrReserved o)) ∧
  ∀ d s, Answers (.wrId d) s .okayWrite s ∧ Answers (.wrStatus d) s .okayWrite s ∧
    Answers (.wrTilesX d) s .okayWrite s ∧ Answers (.wrTilesY d) s .okayWrite s ∧
    Answers (.wrTileCount d) s .okayWrite s ∧ Answers (.wrTileIndex d) s .okayWrite s ∧
    ∀ o, Answers (.wrReserved o d) s .okayWrite s

/-- R131, R133, R135, R137: a write to WIDTH, HEIGHT, FORMAT or SRC_BASE outside RUN stores its field of DATA and nothing
else; in RUN it is discarded and sets IGN. -/
def Obligations.ConfigurationWrites : Prop :=
  (WriteRow 0x6010 .wrWidth ∧ WriteRow 0x6014 .wrHeight ∧ WriteRow 0x6018 .wrFormat ∧ WriteRow 0x601C .wrSrcBase) ∧
  ∀ d s,
    (s.state ≠ .run →
      Answers (.wrWidth d) s .okayWrite { s with width := d.extractLsb' 0 16 } ∧
      Answers (.wrHeight d) s .okayWrite { s with height := d.extractLsb' 0 16 } ∧
      Answers (.wrFormat d) s .okayWrite { s with fmt := d.extractLsb' 0 2 } ∧
      Answers (.wrSrcBase d) s .okayWrite { s with srcBase := d }) ∧
    (s.state = .run →
      Answers (.wrWidth d) s .okayWrite { s with ign := true } ∧
      Answers (.wrHeight d) s .okayWrite { s with ign := true } ∧
      Answers (.wrFormat d) s .okayWrite { s with ign := true } ∧
      Answers (.wrSrcBase d) s .okayWrite { s with ign := true })

/-- R129: a write to INT_EN stores DONE_IE from DATA[0] and ERR_IE from DATA[1] in every state, changes nothing else, and
`irq` follows at once. -/
def Obligations.IntEnWriteDrivesIrq : Prop :=
  WriteRow 0x600C .wrIntEn ∧
  ∀ d s, ∃ e : BitVec 2, Answers (.wrIntEn d) s .okayWrite { s with intEn := e } ∧
    e.getLsbD 0 = d.getLsbD 0 ∧ e.getLsbD 1 = d.getLsbD 1 ∧
    (State.irq { s with intEn := e } = true ↔
      (d.getLsbD 0 = true ∧ s.state = .done) ∨ (d.getLsbD 1 = true ∧ s.state = .error))

/-- R28 to R32, R84: after a write of DATA `d` the register reads `d` with its reserved bits cleared, for the configuration
registers outside RUN and for INT_EN in every state. -/
def Obligations.WriteThenReadReturnsTheField : Prop :=
  ∀ d s,
    (s.state ≠ .run →
      (∃ t w, exec (.wrWidth d) s = .next t ∧ Reads .rdWidth t w ∧ w.toNat = d.toNat % 2 ^ 16) ∧
      (∃ t w, exec (.wrHeight d) s = .next t ∧ Reads .rdHeight t w ∧ w.toNat = d.toNat % 2 ^ 16) ∧
      (∃ t w, exec (.wrFormat d) s = .next t ∧ Reads .rdFormat t w ∧ w.toNat = d.toNat % 2 ^ 2) ∧
      (∃ t w, exec (.wrSrcBase d) s = .next t ∧ Reads .rdSrcBase t w ∧ w = d)) ∧
    (∃ t w, exec (.wrIntEn d) s = .next t ∧ Reads .rdIntEn t w ∧ w.toNat = d.toNat % 2 ^ 2)

/-! ### Commands -/

/-- R125: a write to CMD performs the command its DATA decodes to and answers OKAY, legal or not. -/
def Obligations.CmdWritePerformsItsCommand : Prop :=
  WriteRow 0x6004 .wrCmd ∧
  ∀ d s, exec (.wrCmd d) s = exec (decodeCmd d) s ∧
    ∃ t, exec (.wrCmd d) s = .next t ∧ t.response = some .okayWrite

/-- R101: NOP changes nothing, in every state. -/
def Obligations.NopChangesNothing : Prop :=
  decodeWord (.cmd 0x00000000) = .nop ∧ ∀ s, Answers .nop s .okayWrite s

/-- R103: START in RUN is discarded: it sets IGN and changes nothing else. -/
def Obligations.StartInRunIsDiscarded : Prop :=
  ∀ s, s.state = .run → Answers .start s .okayWrite { s with ign := true }

/-- R102, R104, R105, R106, R107, R205: START outside RUN reports the first of its checks that fails, in the order
dimensions, format, address range, and starts a run otherwise, which is DONE at once when it has no tiles; in each case the
whole next state is given, but for what `src_race` is after a failed check (log entry 14). -/
def Obligations.StartFollowsItsChecks : Prop :=
  decodeWord (.cmd 0x00000001) = .start ∧
  ∀ s, s.state ≠ .run →
    (s.width.toNat % 8 ≠ 0 ∨ s.height.toNat % 8 ≠ 0 →
      ∃ r, Answers .start s .okayWrite (failedStart .invalidCarrierDimensions r s)) ∧
    (s.width.toNat % 8 = 0 → s.height.toNat % 8 = 0 →
      (s.fmt ≠ 0 → s.fmt ≠ 1 → ∃ r, Answers .start s .okayWrite (failedStart .invalidFormat r s)) ∧
      ∀ c : Nat, (s.fmt = 0 ∧ c = 1) ∨ (s.fmt = 1 ∧ c = 3) →
        (0 < s.width.toNat * s.height.toNat * c ∧
            2 ^ 32 < s.srcBase.toNat + s.width.toNat * s.height.toNat * c →
          ∃ r, Answers .start s .okayWrite (failedStart .addressRange r s)) ∧
        (s.width.toNat * s.height.toNat * c = 0 ∨
            s.srcBase.toNat + s.width.toNat * s.height.toNat * c ≤ 2 ^ 32 →
          Answers .start s .okayWrite (startedRun (s.width.toNat / 8) (s.height.toNat / 8) s)))

/-- R14, R252: outside RUN, what START makes of the block depends on the configuration registers alone: two blocks with the
same WIDTH, HEIGHT, FORMAT, SRC_BASE and INT_EN are in the same state after it, whatever their earlier runs were. -/
def Obligations.StartForgetsEarlierRuns : Prop :=
  ∀ s s' t t', s.state ≠ .run → s'.state ≠ .run → s.width = s'.width → s.height = s'.height → s.fmt = s'.fmt →
    s.srcBase = s'.srcBase → s.intEn = s'.intEn → exec .start s = .next t → exec .start s' = .next t' →
    { t with sourceMem := t'.sourceMem, memAnswers := t'.memAnswers, rst := t'.rst, response := t'.response,
             delivered := t'.delivered, schedule := t'.schedule, freeDrawn := t'.freeDrawn,
             platform := t'.platform } = t'

/-- R108: ABORT returns to IDLE from every state, withdraws a presented tile and keeps the geometry and the configuration. -/
def Obligations.AbortReturnsToIdle : Prop :=
  decodeWord (.cmd 0x00000002) = .abort ∧
  ∀ s, Answers .abort s .okayWrite
    { s with state := .idle, errCode := .none, ign := false, tileIndex := 0, port := none, hidden := [] }

/-- R109: CLEAR_ERR clears IGN in every state, and in ERROR it also returns to IDLE with the error and TILE_INDEX cleared. -/
def Obligations.ClearErrAcknowledges : Prop :=
  decodeWord (.cmd 0x00000003) = .clearErr ∧
  ∀ s, (s.state ≠ .error → Answers .clearErr s .okayWrite { s with ign := false }) ∧
    (s.state = .error → Answers .clearErr s .okayWrite
      { s with ign := false, state := .idle, errCode := .none, tileIndex := 0, hidden := [] })

/-- R110, by the error entry of R202: an illegal command enters ERROR with ILLEGAL_COMMAND, withdraws a presented tile and
keeps TILE_INDEX, the geometry and the configuration; in ERROR the first error is kept and nothing changes. -/
def Obligations.IllegalCommandEntersError : Prop :=
  (∀ w : Word, 3 < w.toNat → decodeWord (.cmd w) = .illegalCmd w) ∧
  ∀ w s, (s.state ≠ .error → Answers (.illegalCmd w) s .okayWrite
      { s with state := .error, errCode := .illegalCommand, port := none, hidden := [] }) ∧
    (s.state = .error → Answers (.illegalCmd w) s .okayWrite s)

/-- R202: the error entry sets STATE and ERR_CODE, withdraws a presented tile, discards the hidden state and changes nothing
else; in ERROR the first error is kept and nothing changes. -/
def Obligations.ErrorEntryKeepsTheFirstError : Prop :=
  ∀ c s, (s.state = .error → raiseError c s = s) ∧
    (s.state ≠ .error → raiseError c s = { s with state := .error, errCode := c, port := none, hidden := [] })

/-! ### Rules over all instructions -/

/-- R26: IGN is set by exactly the ignored accesses in RUN, which change nothing else and leave `irq` as it is; no step of any
agent sets it otherwise, and none in another state; START outside RUN, ABORT, CLEAR_ERR and reset clear it. -/
def Obligations.IgnIsSetOnlyByAccessesIgnoredInRun : Prop :=
  (∀ s t, step s = .next t → s.ign = false → t.ign = true →
    s.state = .run ∧ ∃ i, nextInstr s = some i ∧ ignoredInRun i = true) ∧
  (∀ i s, s.state = .run → ignoredInRun i = true →
    Answers i s .okayWrite { s with ign := true } ∧ State.irq { s with ign := true } = s.irq) ∧
  (∀ s t, s.state ≠ .run → exec .start s = .next t → t.ign = false) ∧
  (∀ s t, exec .abort s = .next t → t.ign = false) ∧
  (∀ s t, exec .clearErr s = .next t → t.ign = false) ∧
  ∀ s, (setResetPin true s).ign = false

/-- R24, R33, R34, R35: no instruction other than a command changes STATE, ERR_CODE, the geometry, TILE_INDEX, the port or
the hidden state. -/
def Obligations.OnlyCommandsChangeTheRun : Prop :=
  ∀ i s t, isCommand i = false → exec i s = .next t →
    t.state = s.state ∧ t.errCode = s.errCode ∧ t.tilesX = s.tilesX ∧ t.tilesY = s.tilesY ∧
      t.tileCount = s.tileCount ∧ t.tileIndex = s.tileIndex ∧ t.port = s.port ∧ t.hidden = s.hidden ∧
      t.srcRace = s.srcRace

/-- R100, R120: every instruction completes with a response, and changes no byte of source memory, no delivered tile, no
platform parameter, no input of another agent; a command changes no configuration register and no interrupt enable. -/
def Obligations.EveryInstructionRespondsAndKeepsItsFrame : Prop :=
  ∀ i s, ∃ t, exec i s = .next t ∧ t.response ≠ none ∧
    (∀ a, Memory.read t.sourceMem a = Memory.read s.sourceMem a) ∧ t.delivered = s.delivered ∧
    t.platform = s.platform ∧ t.memAnswers = s.memAnswers ∧ t.rst = s.rst ∧ t.schedule = s.schedule ∧
    t.freeDrawn = s.freeDrawn ∧
    (isCommand i = true → t.width = s.width ∧ t.height = s.height ∧ t.fmt = s.fmt ∧ t.srcBase = s.srcBase ∧
      t.intEn = s.intEn)

/-- R63: the block never writes source memory: only another agent's write changes a byte of it, at any step. -/
def Obligations.OnlyOtherAgentsWriteSourceMemory : Prop :=
  ∀ s t, step s = .next t → (∀ a b rest, s.schedule ≠ .poke a b :: rest) →
    ∀ a, Memory.read t.sourceMem a = Memory.read s.sourceMem a

/-- R38, R71, R74: another agent's write changes one byte of source memory; it sets `src_race` exactly when STATE = RUN and the
byte is in the active source region, and then the samples of a presented tile are free values, its order and sideband
unaffected; it changes nothing else (log entries 7, 8, 15 and 19). -/
def Obligations.PokeWritesOneByteAndRecordsTheRace : Prop :=
  ∀ s a b rest, Memory.wf s.sourceMem = true → s.schedule = .poke a b :: rest →
    ∃ m r p f, step s = .next { s with schedule := rest, sourceMem := m, srcRace := r, port := p, freeDrawn := f } ∧
      Memory.read m a.toNat = b ∧ (∀ a', a' ≠ a.toNat → Memory.read m a' = Memory.read s.sourceMem a') ∧
      (r = true ↔ s.srcRace = true ∨ IsRace s a.toNat) ∧
      (¬ IsRace s a.toNat → p = s.port ∧ f = s.freeDrawn) ∧
      (IsRace s a.toNat → s.freeDrawn + 192 ≤ f ∧ (s.port = none → p = none) ∧
        ∀ tile, s.port = some tile → ∃ d, p = some { tile with data := d } ∧ FreeSamples s { tile with data := d })

/-- R39, R211: `irq` is 1 exactly while an enabled cause's state holds, never by both causes, and is 0 at reset. -/
def Obligations.IrqIsALevelOfStateAndEnables : Prop :=
  (∀ s : State, s.irq = true ↔ (s.intEn.getLsbD 0 = true ∧ s.state = .done) ∨
    (s.intEn.getLsbD 1 = true ∧ s.state = .error)) ∧
  (∀ s : State, ¬ (s.state = .done ∧ s.state = .error)) ∧ State.reset.irq = false

/-! ### The tile datapath -/

/-- R157, R255: the engine takes no step unless it is enabled and memory answers (log entry 22), and else exactly one of
ENGINE_LOAD and ENGINE_FAULT is its step, according to whether every byte of the next tile can be read. -/
def Obligations.EngineStepsExactlyWhenEnabled : Prop :=
  ∀ s, (¬ EngineReady s ∨ s.memAnswers = false → engineStep s = .next s) ∧
    (BlockInv s → EngineReady s → s.memAnswers = true →
      (TileReadable s s.tileIndex.toNat → ∃ t, engineStep s = .next t ∧ t.port ≠ none ∧ t.state = .run) ∧
      (¬ TileReadable s s.tileIndex.toNat → ∃ t, engineStep s = .next t ∧ t.port = none ∧ t.state = .error))

/-- R158, with R152 and R155: without a race ENGINE_LOAD presents the tile with index TILE_INDEX, carrying the raster's
samples and its sideband, and changes nothing else. -/
def Obligations.EngineLoadPresentsTheNextTile : Prop :=
  ∀ s, BlockInv s → HiddenInv s → s.srcRace = false → EngineReady s → s.memAnswers = true →
    TileReadable s s.tileIndex.toNat →
    ∃ tile, engineStep s = .next { s with port := some tile } ∧ Sideband s s.tileIndex.toNat tile ∧
      CarriesTile s s.tileIndex.toNat tile

/-- R160: if a byte of the next tile answers ReadError, the engine raises SOURCE_READ_ERROR, keeps TILE_INDEX and the
geometry, and presents nothing. -/
def Obligations.EngineFaultRaisesSourceReadError : Prop :=
  ∀ s k j, BlockInv s → EngineReady s → s.memAnswers = true → k < 64 → j < channels s.fmt →
    TileByteFails s s.tileIndex.toNat k j →
    engineStep s = .next { s with state := .error, errCode := .sourceReadError, port := none, hidden := [] }

/-- R159: at a step where `t_valid` and `t_ready` are both 1 the consumer takes the presented tile: TILE_INDEX advances by
one and the last tile enters DONE; at any other consumer step nothing happens. -/
def Obligations.TakeDeliversThePresentedTile : Prop :=
  ∀ s tReady rest, s.rst = false → s.schedule = .consumer tReady :: rest →
    (∀ tile, BlockInv s → s.port = some tile → tReady = true →
      ∃ n : Word, n.toNat = s.tileIndex.toNat + 1 ∧
        step s = .next { s with schedule := rest, port := none, delivered := tile :: s.delivered, tileIndex := n,
                                state := (if s.tileIndex.toNat + 1 = s.tileCount.toNat then .done else .run) }) ∧
    (s.port = none ∨ tReady = false → step s = .next { s with schedule := rest })

/-- R153: luma rounds 299R + 587G + 114B to the nearest thousand, and an exact tie by LUMA_TIE, whose default is up: up, or
to the even result. -/
def Obligations.LumaRoundsToNearest : Prop :=
  ∀ tie (r g b : Byte), ∃ n l : Nat, n = 299 * r.toNat + 587 * g.toNat + 114 * b.toNat ∧ l = (luma tie r g b).toNat ∧
    (tie = Config.defaultPlatform.lumaTie → l = (n + 500) / 1000) ∧
    (n % 1000 ≠ 500 → 1000 * l < n + 500 ∧ n < 1000 * l + 500) ∧
    (n % 1000 = 500 →
      (tie = .halfUp → 1000 * l = n + 500) ∧
      (tie = .halfEven → l % 2 = 0 ∧ (1000 * l = n + 500 ∨ 1000 * l + 500 = n)))

/-- R154: luma is 0 exactly below 500 and 255 exactly from 254500 on, for both values of LUMA_TIE, and gray pixels are fixed
points. -/
def Obligations.LumaRangeAndGrayFixedPoints : Prop :=
  ∀ tie (r g b : Byte),
    (luma tie r g b = 0 ↔ 299 * r.toNat + 587 * g.toNat + 114 * b.toNat < 500) ∧
    (luma tie r g b = 255 ↔ 254500 ≤ 299 * r.toNat + 587 * g.toNat + 114 * b.toNat) ∧ luma tie r r r = r

/-- R150, R151: every pixel of the raster lies in exactly one tile, the one with index (y/8) × TILES_X + (x/8), at in-tile
position (y mod 8, x mod 8). -/
def Obligations.TilesPartitionTheRaster : Prop :=
  ∀ s y x, s.width.toNat = 8 * s.tilesX.toNat → s.height.toNat = 8 * s.tilesY.toNat →
    y < s.height.toNat → x < s.width.toNat →
    (y / 8 * s.tilesX.toNat + x / 8 < s.tilesX.toNat * s.tilesY.toNat ∧
      pixelY s (y / 8 * s.tilesX.toNat + x / 8) (8 * (y % 8) + x % 8) = y ∧
      pixelX s (y / 8 * s.tilesX.toNat + x / 8) (8 * (y % 8) + x % 8) = x) ∧
    ∀ n k, k < 64 → pixelY s n k = y → pixelX s n k = x →
      n = y / 8 * s.tilesX.toNat + x / 8 ∧ k = 8 * (y % 8) + x % 8

/-- R71, R152: in a run every byte of every tile lies inside the active source region and inside source memory: no address
wraps. -/
def Obligations.TileBytesLieInTheActiveRegion : Prop :=
  ∀ s n k j, BlockInv s → s.state = .run → n < s.tileCount.toNat → k < 64 → j < channels s.fmt →
    inActiveRegion s (pixelAddr s (pixelY s n k) (pixelX s n k) + j) = true ∧
      pixelAddr s (pixelY s n k) (pixelX s n k) + j < 2 ^ 32

/-- R156: a tile depends only on W, C, SRC_BASE, the grid and the answers of its own bytes: two states that agree on those
have the same tile, or none. -/
def Obligations.TileDependsOnlyOnItsOwnBytes : Prop :=
  ∀ s s' n, s.width = s'.width → s.fmt = s'.fmt → s.srcBase = s'.srcBase → s.tilesX = s'.tilesX →
    s.platform = s'.platform →
    (∀ k j m, k < 64 → j < channels s.fmt →
      oracleByte s m (pixelAddr s (pixelY s n k) (pixelX s n k) + j) =
        oracleByte s' m (pixelAddr s (pixelY s n k) (pixelX s n k) + j)) →
    tileSamples s n = tileSamples s' n

/-- R74: under a race the next tile is presented with its order and sideband unaffected, and each of its samples is a free
value of its own: any byte for GRAY8, the luma of any three for RGB888. -/
def Obligations.RacedTileHoldsFreeSamples : Prop :=
  ∀ s, BlockInv s → s.srcRace = true → EngineReady s → s.memAnswers = true → TileReadable s s.tileIndex.toNat →
    ∃ tile, engineStep s = .next { s with port := some tile, freeDrawn := s.freeDrawn + 192 } ∧
      Sideband s s.tileIndex.toNat tile ∧ FreeSamples s tile

/-- R77, R37: reading ahead is not observable: without a race an engine step does the same with the hidden state as with
none. -/
def Obligations.ReadAheadIsNotObservable : Prop :=
  ∀ s t, HiddenInv s → s.srcRace = false → engineStep s = .next t →
    engineStep { s with hidden := [] } = .next { t with hidden := [] }

/-- R86, R163: the beat packed from 64 samples reads back as those samples in row-major order. -/
def Obligations.PackedBeatIsTileBytes : Prop :=
  ∀ (t : Tile) bs, bs.length = 64 → t.data = packSamples bs →
    t.bytes = bs ∧ ∀ r c, r < 8 → c < 8 → bs[8 * r + c]? = some (t.cell r c)

/-! ### Reset and the agents -/

/-- R40, R241: a reset, an assertion of `rst` and its release, gives from any state every component its reset value, with
`irq` = 0, and leaves source memory; nothing is delivered by it. That it leaves the level that says whether source memory
answers is the model's choice, log entry 22. -/
def Obligations.ResetGivesEveryComponentItsValue : Prop :=
  ∀ (s : State) rest, s.schedule = .resetPin true :: .resetPin false :: rest →
    ∃ t : State, Host.Core.run core 2 s = .next t ∧ t.state = .idle ∧ t.ign = false ∧ t.errCode = .none ∧ t.intEn = 0 ∧
      t.width = 0 ∧ t.height = 0 ∧ t.fmt = 0 ∧ t.srcBase = 0 ∧ t.tilesX = 0 ∧ t.tilesY = 0 ∧ t.tileCount = 0 ∧
      t.tileIndex = 0 ∧ t.port = none ∧ t.hidden = [] ∧ t.srcRace = false ∧ t.irq = false ∧
      t.sourceMem = s.sourceMem ∧ t.memAnswers = s.memAnswers ∧ t.delivered = s.delivered ∧ t.platform = s.platform ∧
      t.schedule = rest ∧ t.rst = false

/-- R206, R240: asserting `rst` gives the reset values at once (the model's reading, log entry 7), and while `rst` = 1 no step
of the host, the engine or the consumer changes anything. Another agent's write then changes its one byte of source memory and
nothing else (log entry 7), and the memory's beginning or ceasing to answer changes that level and nothing else (log entry
22). -/
def Obligations.ResetHoldsOffEveryAgent : Prop :=
  (∀ s rest, s.schedule = .resetPin true :: rest → ∃ t, step s = .next t ∧ HoldsResetValues t ∧ t.rst = true) ∧
  ∀ s e rest, s.rst = true → s.schedule = e :: rest →
    ((∀ a b, e ≠ .poke a b) → (∀ l, e ≠ .memoryAnswers l) → (∀ l, e ≠ .resetPin l) →
      step s = .next { s with schedule := rest }) ∧
    (∀ a b, BlockInv s → Memory.wf s.sourceMem = true → e = .poke a b →
      ∃ m, step s = .next { s with schedule := rest, sourceMem := m } ∧ Memory.read m a.toNat = b ∧
        ∀ a', a' ≠ a.toNat → Memory.read m a' = Memory.read s.sourceMem a') ∧
    ∀ l, e = .memoryAnswers l → step s = .next { s with schedule := rest, memAnswers := l }

/-- R203: in ERROR the block is halted: no tile is presented, no engine or consumer step changes anything, scheduled or not,
and the state is left only by a host command or reset. -/
def Obligations.ErrorHaltsEngineAndConsumer : Prop :=
  ∀ s, BlockInv s → s.state = .error →
    s.port = none ∧ (s.schedule = [] → step s = .next s) ∧
    (∀ e rest, s.schedule = e :: rest →
      (e = .engine ∨ (∃ a, e = .readAhead a) ∨ ∃ l, e = .consumer l) → step s = .next { s with schedule := rest }) ∧
    ∀ t, step s = .next t → t.state ≠ .error →
      (∃ i, nextInstr s = some i ∧ isCommand i = true) ∨ ∃ rest, s.schedule = .resetPin true :: rest

/-- R25, R219: IDLE, DONE and ERROR are quiescent: a step leaves one of them only where it is a command of the host or a
reset, and until then no tile is presented or taken, no byte is read ahead and TILE_INDEX stays. -/
def Obligations.QuiescentStatesAreLeftOnlyByCommandOrReset : Prop :=
  ∀ s t, BlockInv s → s.state ≠ .run → step s = .next t →
    (t.state = s.state ∧ t.errCode = s.errCode ∧ t.tileIndex = s.tileIndex ∧ t.port = none ∧ t.hidden = s.hidden ∧
      t.delivered = s.delivered) ∨
    (∃ i, nextInstr s = some i ∧ isCommand i = true) ∨ ∃ rest, s.schedule = .resetPin true :: rest

/-- R36, R74: a presented tile does not change until the consumer takes it or ABORT, an illegal command or reset withdraws it,
but for its samples where a write to the active region in RUN makes them free values (log entry 8). -/
def Obligations.PresentedTileIsStable : Prop :=
  ∀ s t tile, BlockInv s → s.port = some tile → step s = .next t → t.port ≠ some tile →
    (t.port = none ∧
      ((∃ rest, s.schedule = .consumer true :: rest ∧ t.delivered = tile :: s.delivered) ∨
       (∃ i, nextInstr s = some i ∧ withdraws i = true ∧ t.delivered = s.delivered) ∨
       (∃ rest, s.schedule = .resetPin true :: rest ∧ t.delivered = s.delivered))) ∨
    ∃ a b rest d, s.schedule = .poke a b :: rest ∧ IsRace s a.toNat ∧ t.srcRace = true ∧
      t.port = some { tile with data := d } ∧ t.delivered = s.delivered

/-- R35: in a run TILE_INDEX changes only at a transfer, and then by exactly one. -/
def Obligations.TileIndexCountsTransfers : Prop :=
  ∀ s t, BlockInv s → s.state = .run → step s = .next t → (t.state = .run ∨ t.state = .done) →
    (t.delivered = s.delivered ∧ t.tileIndex = s.tileIndex) ∨
    ∃ tile, s.port = some tile ∧ t.delivered = tile :: s.delivered ∧ t.tileIndex.toNat = s.tileIndex.toNat + 1

/-- R36, R251: a consumer that reads the port fields while no tile is presented faults. -/
def Obligations.SamplingAnEmptyPortFaults : Prop :=
  ∀ s rest, s.rst = false → s.schedule = .samplePort :: rest →
    (s.port = none → step s = .fault .portHasNoValue) ∧
    (s.port ≠ none → step s = .next { s with schedule := rest })

/-- R91: the four accesses of CONFIG, run outside RUN, leave the block configured and nothing else changed. -/
def Obligations.ConfigPseudoInstructionConfigures : Prop :=
  ∀ (s : State) w h f b rest, s.rst = false → s.state ≠ .run → s.schedule = hostSchedule (pseudoConfig w h f b) ++ rest →
    Host.Core.run core 4 s = .next
      { s with width := w.extractLsb' 0 16, height := h.extractLsb' 0 16, fmt := f.extractLsb' 0 2, srcBase := b,
               response := some .okayWrite, schedule := rest }

/-! ### Invariants -/

/-- R40: reset meets every invariant, with any platform, source memory in canonical form and schedule beside the block. -/
def Obligations.PoweredUpMeetsTheInvariants : Prop :=
  PoweredUp State.reset ∧
  ∀ s, PoweredUp s → BlockInv s ∧ HiddenInv s ∧ DeliveredInOrder s ∧ DeliversRaster s ∧ Memory.wf s.sourceMem = true

/-- R8, R25, R27, R33 to R36, R86, R240: every step keeps what STATE, ERR_CODE, TILE_INDEX, the geometry and the port say of
each other. -/
def Obligations.StepKeepsBlockInvariant : Prop :=
  ∀ s t, BlockInv s → step s = .next t → BlockInv t

/-- R61: every step keeps source memory in its canonical form. -/
def Obligations.StepKeepsMemoryCanonical : Prop :=
  ∀ s t, Memory.wf s.sourceMem = true → step s = .next t → Memory.wf t.sourceMem = true

/-- R37, R71, R77: every step keeps the bytes read ahead in a run without a race equal to the bytes stored. -/
def Obligations.StepKeepsHiddenBytesStored : Prop :=
  ∀ s t, Memory.wf s.sourceMem = true → HiddenInv s → step s = .next t → HiddenInv t

/-- R76: tiles leave the port in strictly increasing index order with none repeated or skipped: every step keeps the tiles
taken in the current run at the indices 0 to TILE_INDEX − 1 in order. -/
def Obligations.StepKeepsDeliveryOrder : Prop :=
  ∀ s t, BlockInv s → DeliveredInOrder s → step s = .next t → DeliveredInOrder t

/-- R155, R158, R247: every step keeps, in a run without a race, the presented tile and every tile taken equal to the tiles
of the raster that source memory holds; and after the step that ends the run in DONE, its TILE_COUNT tiles are the raster's,
each at its place in the order taken. -/
def Obligations.StepKeepsDeliveredTilesTheRaster : Prop :=
  ∀ s t, BlockInv s → HiddenInv s → Memory.wf s.sourceMem = true → DeliversRaster s → step s = .next t →
    DeliversRaster t ∧
    (DeliveredInOrder s → s.state = .run → s.srcRace = false → t.state = .done →
      ∀ n, n < t.tileCount.toNat →
        ∃ tile, t.delivered[t.tileCount.toNat - 1 - n]? = some tile ∧ tile.index.toNat = n ∧ CarriesTile t n tile)

/-- R164: a run whose tiles can all be read, from a memory that answers, reaches DONE after exactly one ENGINE_LOAD and one
TAKE for each tile that remains, and, without a race, delivers every one of them as the raster's tile, in order. -/
def Obligations.RunReachesDoneDeliveringTheRaster : Prop :=
  ∀ (s : State) rest, BlockInv s → HiddenInv s → s.state = .run → s.port = none → s.rst = false → s.memAnswers = true →
    (∀ n, s.tileIndex.toNat ≤ n → n < s.tileCount.toNat → TileReadable s n) →
    s.schedule = loadTakeRounds (s.tileCount.toNat - s.tileIndex.toNat) ++ rest →
    ∃ t : State, Host.Core.run core (2 * (s.tileCount.toNat - s.tileIndex.toNat)) s = .next t ∧
      t.state = .done ∧ t.tileIndex = s.tileCount ∧ t.port = none ∧ t.schedule = rest ∧
      t.delivered.length = s.delivered.length + (s.tileCount.toNat - s.tileIndex.toNat) ∧
      ∀ n, s.tileIndex.toNat ≤ n → n < s.tileCount.toNat →
        ∃ tile, t.delivered[s.tileCount.toNat - 1 - n]? = some tile ∧ Sideband s n tile ∧
          (s.srcRace = false → CarriesTile s n tile)

/-- R36, R106, R251: from a state that meets the invariant no step refuses, and the only fault is a consumer's own, reading
the port fields while no tile is presented (log entries 11 and 12). -/
def Obligations.OnlyAPrematureSampleFaults : Prop :=
  ∀ s, BlockInv s →
    StepGoesOn s ∨
    (step s = .fault .portHasNoValue ∧ s.port = none ∧ s.rst = false ∧ ∃ rest, s.schedule = .samplePort :: rest)

/-! ### Hangs -/

/-- R255: a run with a tile presented stays so until the consumer takes the tile, and one with none presented stays so while
source memory does not answer, with no error and no timeout: only ABORT, an illegal command or reset ends it otherwise, and
ABORT and reset do from every state. That one input says whether memory answers is the model's form, log entry 22. -/
def Obligations.RunWaitsForConsumerAndMemory : Prop :=
  (∀ s t, BlockInv s → s.state = .run → step s = .next t → (∀ i, nextInstr s = some i → withdraws i = false) →
    (∀ rest, s.schedule ≠ .resetPin true :: rest) →
    (s.port ≠ none → (∀ rest, s.schedule ≠ .consumer true :: rest) →
      t.state = .run ∧ t.port ≠ none ∧ t.tileIndex = s.tileIndex) ∧
    (s.port = none → s.memAnswers = false → (∀ rest, s.schedule ≠ .memoryAnswers true :: rest) →
      t.state = .run ∧ t.port = none ∧ t.memAnswers = false ∧ t.tileIndex = s.tileIndex ∧ t.hidden = s.hidden)) ∧
  (∀ s w rest, s.rst = false → s.schedule = .host w :: rest → decodeWord w = .abort →
    ∃ t, step s = .next t ∧ t.state = .idle) ∧
  ∀ s rest, s.schedule = .resetPin true :: rest → ∃ t, step s = .next t ∧ t.state = .idle
end

