-- ==== Sys2Proof/Laws/Encoding.lean ====
section
/-! SUPPORT. The fields of a BUS descriptor, and which command a CMD word selects. -/

namespace Sys2Proof

/-- A descriptor bit by bit. -/
theorem descriptor_getLsbD (we : Bool) (size : Size) (o : Offset) (i : Nat) :
    (descriptor we size o).getLsbD i =
      if i < 12 then o.getLsbD i else if i < 14 then size.getLsbD (i - 12) else decide (i = 14) && we := by
  have h : (descriptor we size o).getLsbD i = (BitVec.ofBool we ++ size ++ o : BitVec (1 + 2 + 12)).getLsbD i := rfl
  rw [h, BitVec.getLsbD_append, BitVec.getLsbD_append, BitVec.getLsbD_ofBool]
  by_cases h1 : i < 12
  · simp [h1]
  · by_cases h2 : i < 14
    · have h3 : i - 12 < 2 := by omega
      simp [h1, h2, h3]
    · have h3 : ¬ i - 12 < 2 := by omega
      have h4 : (i - 12 - 2 = 0) ↔ i = 14 := by omega
      simp [h1, h2, h3, h4]

@[simp] theorem descWe_descriptor (we : Bool) (size : Size) (o : Offset) : descWe (descriptor we size o) = we := by
  simp only [descWe, descriptor_getLsbD]
  simp

@[simp] theorem descSize_descriptor (we : Bool) (size : Size) (o : Offset) :
    descSize (descriptor we size o) = size := by
  apply BitVec.eq_of_getLsbD_eq
  intro i hi
  have h1 : ¬ 12 + i < 12 := by omega
  have h2 : 12 + i < 14 := by omega
  simp only [descSize, BitVec.getLsbD_extractLsb', descriptor_getLsbD, hi, h1, h2, decide_true, Bool.true_and, if_true,
    if_false, Nat.add_sub_cancel_left]

@[simp] theorem descOffset_descriptor (we : Bool) (size : Size) (o : Offset) :
    descOffset (descriptor we size o) = o := by
  apply BitVec.eq_of_getLsbD_eq
  intro i hi
  simp only [descOffset, BitVec.getLsbD_extractLsb', descriptor_getLsbD, hi, decide_true, Bool.true_and, if_true,
    Nat.zero_add]

/-- A descriptor is its three fields. -/
theorem descriptor_fields (x : Descriptor) : descriptor (descWe x) (descSize x) (descOffset x) = x := by
  apply BitVec.eq_of_getLsbD_eq
  intro i hi
  rw [descriptor_getLsbD]
  simp only [descOffset, descSize, descWe, BitVec.getLsbD_extractLsb']
  split
  · simp_all
  · split
    · have h1 : i - 12 < 2 := by omega
      have h2 : 12 + (i - 12) = i := by omega
      simp [h1, h2]
    · have h1 : i = 14 := by omega
      simp [h1]

/-- The four CMD words that are commands, and all the others (R83). -/
theorem decodeCommand_cases (w : Word) :
    (w = 0 ∧ decodeCommand w = .nop) ∨ (w = 1 ∧ decodeCommand w = .start) ∨
    (w = 2 ∧ decodeCommand w = .abort) ∨ (w = 3 ∧ decodeCommand w = .clearErr) ∨
    (3 < w.toNat ∧ decodeCommand w = .illegal w) := by
  unfold decodeCommand
  split
  · exact .inl ⟨‹_›, rfl⟩
  · split
    · exact .inr (.inl ⟨‹_›, rfl⟩)
    · split
      · exact .inr (.inr (.inl ⟨‹_›, rfl⟩))
      · split
        · exact .inr (.inr (.inr (.inl ⟨‹_›, rfl⟩)))
        · refine .inr (.inr (.inr (.inr ⟨?_, rfl⟩)))
          bv_omega

/-- A masked descriptor, field by field. -/
theorem descriptor_and (we we' : Bool) (size size' : Size) (o o' : Offset) :
    descriptor we size o &&& descriptor we' size' o' = descriptor (we && we') (size &&& size') (o &&& o') := by
  apply BitVec.eq_of_getLsbD_eq
  intro i _
  rw [BitVec.getLsbD_and]
  simp only [descriptor_getLsbD]
  split
  · rw [BitVec.getLsbD_and]
  · split
    · rw [BitVec.getLsbD_and]
    · cases decide (i = 14) <;> simp

end Sys2Proof
end

