-- ==== Sys2Proof/Laws/Memory.lean ====
section
/-! SUPPORT. The laws of source memory: what a read gives after a write, and that a write keeps the canonical form. -/

namespace Sys2Proof.Machine

@[simp] theorem Memory.read_nil (a : Nat) : Memory.read [] a = Config.unlistedByte := rfl

theorem Memory.read_cons (k : Nat) (v : Byte) (m : List Host.Cell) (a : Nat) :
    Memory.read ((k, v) :: m) a = if k = a then v else Memory.read m a := rfl

theorem Memory.wfFrom_cons {low k : Nat} {v : Byte} {m : List Host.Cell} :
    Memory.wfFrom low ((k, v) :: m) = true ↔
      low ≤ k ∧ k < Config.addrSpace ∧ v ≠ Config.unlistedByte ∧ Memory.wfFrom (k + 1) m = true := by
  simp [Memory.wfFrom, and_assoc]

/-- A lower bound may be lowered. -/
theorem Memory.wfFrom_mono {low low' : Nat} {m : List Host.Cell} (h : low' ≤ low)
    (hm : Memory.wfFrom low m = true) : Memory.wfFrom low' m = true := by
  cases m with
  | nil => rfl
  | cons c m =>
    obtain ⟨h1, h2, h3, h4⟩ := Memory.wfFrom_cons.mp hm
    exact Memory.wfFrom_cons.mpr ⟨by omega, h2, h3, h4⟩

/-- An address below every listed one reads as an unlisted address. -/
theorem Memory.read_below {low a : Nat} {m : List Host.Cell} (hm : Memory.wfFrom low m = true) (h : a < low) :
    Memory.read m a = Config.unlistedByte := by
  induction m generalizing low with
  | nil => rfl
  | cons c m ih =>
    obtain ⟨h1, -, -, h4⟩ := Memory.wfFrom_cons.mp hm
    rw [Memory.read_cons, if_neg (by omega), ih h4 (by omega)]

/-- A write keeps the canonical form above a bound that it respects. -/
theorem Memory.write_wfFrom {low a : Nat} {m : List Host.Cell} (b : Byte)
    (hm : Memory.wfFrom low m = true) (h : low ≤ a) (ha : a < Config.addrSpace) :
    Memory.wfFrom low (Memory.write m a b) = true := by
  induction m generalizing low with
  | nil =>
    unfold Memory.write
    split
    · rfl
    · exact Memory.wfFrom_cons.mpr ⟨h, ha, ‹_›, rfl⟩
  | cons c m ih =>
    obtain ⟨h1, h2, h3, h4⟩ := Memory.wfFrom_cons.mp hm
    unfold Memory.write
    split
    · split
      · exact hm
      · exact Memory.wfFrom_cons.mpr ⟨h, ha, ‹_›, Memory.wfFrom_cons.mpr ⟨by omega, h2, h3, h4⟩⟩
    · split
      · split
        · exact Memory.wfFrom_mono (by omega) h4
        · exact Memory.wfFrom_cons.mpr ⟨h, ha, ‹_›, by subst a; exact h4⟩
      · exact Memory.wfFrom_cons.mpr ⟨h1, h2, h3, ih h4 (by omega)⟩

/-- A write keeps the canonical form. -/
theorem Memory.write_wf {m : List Host.Cell} (a : Word) (b : Byte) (hm : Memory.wf m = true) :
    Memory.wf (Memory.write m a.toNat b) = true :=
  Memory.write_wfFrom b hm (Nat.zero_le _) a.isLt

/-- Read after write, above a bound. -/
theorem Memory.read_write_from {low : Nat} {m : List Host.Cell} (hm : Memory.wfFrom low m = true) (a : Nat) (b : Byte)
    (a' : Nat) : Memory.read (Memory.write m a b) a' = if a = a' then b else Memory.read m a' := by
  induction m generalizing low with
  | nil =>
    unfold Memory.write
    split
    · simp_all
    · simp [Memory.read_cons]
  | cons c m ih =>
    obtain ⟨k, v⟩ := c
    obtain ⟨-, -, -, h4⟩ := Memory.wfFrom_cons.mp hm
    unfold Memory.write
    split
    · split
      · split
        · subst a'
          rw [Memory.read_cons, if_neg (by omega), Memory.read_below h4 (by omega)]; exact Eq.symm ‹_›
        · rfl
      · rw [Memory.read_cons]
    · split
      · subst a
        split
        · rw [Memory.read_cons]
          split
          · subst a'
            rw [Memory.read_below h4 (by omega)]; exact Eq.symm ‹_›
          · rfl
        · simp only [Memory.read_cons]
          split <;> rfl
      · rw [Memory.read_cons, Memory.read_cons, ih h4]
        split
        · rw [if_neg (by omega)]
        · rfl

/-- Read after write: the byte written at its own address, and every other byte as before. -/
theorem Memory.read_write {m : List Host.Cell} (hm : Memory.wf m = true) (a : Nat) (b : Byte) (a' : Nat) :
    Memory.read (Memory.write m a b) a' = if a = a' then b else Memory.read m a' :=
  Memory.read_write_from hm a b a'

/-- The memory after reset is in canonical form. -/
theorem State.reset_memory_wf : Memory.wf State.reset.sourceMem = true := rfl

/-- The oracle answers exactly where the platform's predicate does not hold (R62). -/
theorem memRead_eq_some_iff {s : State} {n a : Nat} {b : Byte} :
    memRead s n a = some b ↔ readError s.platform a = false ∧ oracleByte s n a = b := by
  unfold memRead
  cases readError s.platform a <;> simp

/-- Without a race and with nothing read ahead the oracle answers the byte stored (R62). -/
theorem oracleByte_stored {s : State} {n a : Nat} (hr : s.srcRace = false) (hh : s.hidden = []) :
    oracleByte s n a = Memory.read s.sourceMem a := by
  simp [oracleByte, hr, hh]

/-- Under a race the oracle answers a free value (R62, R74). -/
theorem oracleByte_race {s : State} {n a : Nat} (hr : s.srcRace = true) :
    oracleByte s n a = Config.raceByte (s.freeDrawn + n) := by
  simp [oracleByte, hr]

end Sys2Proof.Machine
end

