-- ==== Sys2Proof/Laws/State.lean ====
section
/-! SUPPORT. What each named update does to each field of State, so that no proof unfolds a record update. -/

namespace Sys2Proof.Machine

/-! ### respond -/

@[simp] theorem respond_state (r : BusResponse) (s : State) : (respond r s).state = s.state := rfl
@[simp] theorem respond_ign (r : BusResponse) (s : State) : (respond r s).ign = s.ign := rfl
@[simp] theorem respond_errCode (r : BusResponse) (s : State) : (respond r s).errCode = s.errCode := rfl
@[simp] theorem respond_intEn (r : BusResponse) (s : State) : (respond r s).intEn = s.intEn := rfl
@[simp] theorem respond_width (r : BusResponse) (s : State) : (respond r s).width = s.width := rfl
@[simp] theorem respond_height (r : BusResponse) (s : State) : (respond r s).height = s.height := rfl
@[simp] theorem respond_fmt (r : BusResponse) (s : State) : (respond r s).fmt = s.fmt := rfl
@[simp] theorem respond_srcBase (r : BusResponse) (s : State) : (respond r s).srcBase = s.srcBase := rfl
@[simp] theorem respond_tilesX (r : BusResponse) (s : State) : (respond r s).tilesX = s.tilesX := rfl
@[simp] theorem respond_tilesY (r : BusResponse) (s : State) : (respond r s).tilesY = s.tilesY := rfl
@[simp] theorem respond_tileCount (r : BusResponse) (s : State) : (respond r s).tileCount = s.tileCount := rfl
@[simp] theorem respond_tileIndex (r : BusResponse) (s : State) : (respond r s).tileIndex = s.tileIndex := rfl
@[simp] theorem respond_port (r : BusResponse) (s : State) : (respond r s).port = s.port := rfl
@[simp] theorem respond_hidden (r : BusResponse) (s : State) : (respond r s).hidden = s.hidden := rfl
@[simp] theorem respond_srcRace (r : BusResponse) (s : State) : (respond r s).srcRace = s.srcRace := rfl
@[simp] theorem respond_sourceMem (r : BusResponse) (s : State) : (respond r s).sourceMem = s.sourceMem := rfl
@[simp] theorem respond_memAnswers (r : BusResponse) (s : State) : (respond r s).memAnswers = s.memAnswers := rfl
@[simp] theorem respond_rst (r : BusResponse) (s : State) : (respond r s).rst = s.rst := rfl
@[simp] theorem respond_response (r : BusResponse) (s : State) : (respond r s).response = some r := rfl
@[simp] theorem respond_delivered (r : BusResponse) (s : State) : (respond r s).delivered = s.delivered := rfl
@[simp] theorem respond_schedule (r : BusResponse) (s : State) : (respond r s).schedule = s.schedule := rfl
@[simp] theorem respond_freeDrawn (r : BusResponse) (s : State) : (respond r s).freeDrawn = s.freeDrawn := rfl
@[simp] theorem respond_platform (r : BusResponse) (s : State) : (respond r s).platform = s.platform := rfl

/-! ### setIgn -/

@[simp] theorem setIgn_state (s : State) : (setIgn s).state = s.state := rfl
@[simp] theorem setIgn_ign (s : State) : (setIgn s).ign = true := rfl
@[simp] theorem setIgn_errCode (s : State) : (setIgn s).errCode = s.errCode := rfl
@[simp] theorem setIgn_intEn (s : State) : (setIgn s).intEn = s.intEn := rfl
@[simp] theorem setIgn_width (s : State) : (setIgn s).width = s.width := rfl
@[simp] theorem setIgn_height (s : State) : (setIgn s).height = s.height := rfl
@[simp] theorem setIgn_fmt (s : State) : (setIgn s).fmt = s.fmt := rfl
@[simp] theorem setIgn_srcBase (s : State) : (setIgn s).srcBase = s.srcBase := rfl
@[simp] theorem setIgn_tilesX (s : State) : (setIgn s).tilesX = s.tilesX := rfl
@[simp] theorem setIgn_tilesY (s : State) : (setIgn s).tilesY = s.tilesY := rfl
@[simp] theorem setIgn_tileCount (s : State) : (setIgn s).tileCount = s.tileCount := rfl
@[simp] theorem setIgn_tileIndex (s : State) : (setIgn s).tileIndex = s.tileIndex := rfl
@[simp] theorem setIgn_port (s : State) : (setIgn s).port = s.port := rfl
@[simp] theorem setIgn_hidden (s : State) : (setIgn s).hidden = s.hidden := rfl
@[simp] theorem setIgn_srcRace (s : State) : (setIgn s).srcRace = s.srcRace := rfl
@[simp] theorem setIgn_sourceMem (s : State) : (setIgn s).sourceMem = s.sourceMem := rfl
@[simp] theorem setIgn_memAnswers (s : State) : (setIgn s).memAnswers = s.memAnswers := rfl
@[simp] theorem setIgn_rst (s : State) : (setIgn s).rst = s.rst := rfl
@[simp] theorem setIgn_response (s : State) : (setIgn s).response = s.response := rfl
@[simp] theorem setIgn_delivered (s : State) : (setIgn s).delivered = s.delivered := rfl
@[simp] theorem setIgn_schedule (s : State) : (setIgn s).schedule = s.schedule := rfl
@[simp] theorem setIgn_freeDrawn (s : State) : (setIgn s).freeDrawn = s.freeDrawn := rfl
@[simp] theorem setIgn_platform (s : State) : (setIgn s).platform = s.platform := rfl

/-! ### discardHidden -/

@[simp] theorem discardHidden_state (s : State) : (discardHidden s).state = s.state := rfl
@[simp] theorem discardHidden_ign (s : State) : (discardHidden s).ign = s.ign := rfl
@[simp] theorem discardHidden_errCode (s : State) : (discardHidden s).errCode = s.errCode := rfl
@[simp] theorem discardHidden_intEn (s : State) : (discardHidden s).intEn = s.intEn := rfl
@[simp] theorem discardHidden_width (s : State) : (discardHidden s).width = s.width := rfl
@[simp] theorem discardHidden_height (s : State) : (discardHidden s).height = s.height := rfl
@[simp] theorem discardHidden_fmt (s : State) : (discardHidden s).fmt = s.fmt := rfl
@[simp] theorem discardHidden_srcBase (s : State) : (discardHidden s).srcBase = s.srcBase := rfl
@[simp] theorem discardHidden_tilesX (s : State) : (discardHidden s).tilesX = s.tilesX := rfl
@[simp] theorem discardHidden_tilesY (s : State) : (discardHidden s).tilesY = s.tilesY := rfl
@[simp] theorem discardHidden_tileCount (s : State) : (discardHidden s).tileCount = s.tileCount := rfl
@[simp] theorem discardHidden_tileIndex (s : State) : (discardHidden s).tileIndex = s.tileIndex := rfl
@[simp] theorem discardHidden_port (s : State) : (discardHidden s).port = s.port := rfl
@[simp] theorem discardHidden_hidden (s : State) : (discardHidden s).hidden = [] := rfl
@[simp] theorem discardHidden_srcRace (s : State) : (discardHidden s).srcRace = s.srcRace := rfl
@[simp] theorem discardHidden_sourceMem (s : State) : (discardHidden s).sourceMem = s.sourceMem := rfl
@[simp] theorem discardHidden_memAnswers (s : State) : (discardHidden s).memAnswers = s.memAnswers := rfl
@[simp] theorem discardHidden_rst (s : State) : (discardHidden s).rst = s.rst := rfl
@[simp] theorem discardHidden_response (s : State) : (discardHidden s).response = s.response := rfl
@[simp] theorem discardHidden_delivered (s : State) : (discardHidden s).delivered = s.delivered := rfl
@[simp] theorem discardHidden_schedule (s : State) : (discardHidden s).schedule = s.schedule := rfl
@[simp] theorem discardHidden_freeDrawn (s : State) : (discardHidden s).freeDrawn = s.freeDrawn := rfl
@[simp] theorem discardHidden_platform (s : State) : (discardHidden s).platform = s.platform := rfl

/-! ### withdrawTile -/

@[simp] theorem withdrawTile_state (s : State) : (withdrawTile s).state = s.state := rfl
@[simp] theorem withdrawTile_ign (s : State) : (withdrawTile s).ign = s.ign := rfl
@[simp] theorem withdrawTile_errCode (s : State) : (withdrawTile s).errCode = s.errCode := rfl
@[simp] theorem withdrawTile_intEn (s : State) : (withdrawTile s).intEn = s.intEn := rfl
@[simp] theorem withdrawTile_width (s : State) : (withdrawTile s).width = s.width := rfl
@[simp] theorem withdrawTile_height (s : State) : (withdrawTile s).height = s.height := rfl
@[simp] theorem withdrawTile_fmt (s : State) : (withdrawTile s).fmt = s.fmt := rfl
@[simp] theorem withdrawTile_srcBase (s : State) : (withdrawTile s).srcBase = s.srcBase := rfl
@[simp] theorem withdrawTile_tilesX (s : State) : (withdrawTile s).tilesX = s.tilesX := rfl
@[simp] theorem withdrawTile_tilesY (s : State) : (withdrawTile s).tilesY = s.tilesY := rfl
@[simp] theorem withdrawTile_tileCount (s : State) : (withdrawTile s).tileCount = s.tileCount := rfl
@[simp] theorem withdrawTile_tileIndex (s : State) : (withdrawTile s).tileIndex = s.tileIndex := rfl
@[simp] theorem withdrawTile_port (s : State) : (withdrawTile s).port = none := rfl
@[simp] theorem withdrawTile_hidden (s : State) : (withdrawTile s).hidden = s.hidden := rfl
@[simp] theorem withdrawTile_srcRace (s : State) : (withdrawTile s).srcRace = s.srcRace := rfl
@[simp] theorem withdrawTile_sourceMem (s : State) : (withdrawTile s).sourceMem = s.sourceMem := rfl
@[simp] theorem withdrawTile_memAnswers (s : State) : (withdrawTile s).memAnswers = s.memAnswers := rfl
@[simp] theorem withdrawTile_rst (s : State) : (withdrawTile s).rst = s.rst := rfl
@[simp] theorem withdrawTile_response (s : State) : (withdrawTile s).response = s.response := rfl
@[simp] theorem withdrawTile_delivered (s : State) : (withdrawTile s).delivered = s.delivered := rfl
@[simp] theorem withdrawTile_schedule (s : State) : (withdrawTile s).schedule = s.schedule := rfl
@[simp] theorem withdrawTile_freeDrawn (s : State) : (withdrawTile s).freeDrawn = s.freeDrawn := rfl
@[simp] theorem withdrawTile_platform (s : State) : (withdrawTile s).platform = s.platform := rfl

/-! ### returnToIdle -/

@[simp] theorem returnToIdle_state (s : State) : (returnToIdle s).state = .idle := rfl
@[simp] theorem returnToIdle_ign (s : State) : (returnToIdle s).ign = s.ign := rfl
@[simp] theorem returnToIdle_errCode (s : State) : (returnToIdle s).errCode = .none := rfl
@[simp] theorem returnToIdle_intEn (s : State) : (returnToIdle s).intEn = s.intEn := rfl
@[simp] theorem returnToIdle_width (s : State) : (returnToIdle s).width = s.width := rfl
@[simp] theorem returnToIdle_height (s : State) : (returnToIdle s).height = s.height := rfl
@[simp] theorem returnToIdle_fmt (s : State) : (returnToIdle s).fmt = s.fmt := rfl
@[simp] theorem returnToIdle_srcBase (s : State) : (returnToIdle s).srcBase = s.srcBase := rfl
@[simp] theorem returnToIdle_tilesX (s : State) : (returnToIdle s).tilesX = s.tilesX := rfl
@[simp] theorem returnToIdle_tilesY (s : State) : (returnToIdle s).tilesY = s.tilesY := rfl
@[simp] theorem returnToIdle_tileCount (s : State) : (returnToIdle s).tileCount = s.tileCount := rfl
@[simp] theorem returnToIdle_tileIndex (s : State) : (returnToIdle s).tileIndex = 0 := rfl
@[simp] theorem returnToIdle_port (s : State) : (returnToIdle s).port = s.port := rfl
@[simp] theorem returnToIdle_hidden (s : State) : (returnToIdle s).hidden = [] := rfl
@[simp] theorem returnToIdle_srcRace (s : State) : (returnToIdle s).srcRace = s.srcRace := rfl
@[simp] theorem returnToIdle_sourceMem (s : State) : (returnToIdle s).sourceMem = s.sourceMem := rfl
@[simp] theorem returnToIdle_memAnswers (s : State) : (returnToIdle s).memAnswers = s.memAnswers := rfl
@[simp] theorem returnToIdle_rst (s : State) : (returnToIdle s).rst = s.rst := rfl
@[simp] theorem returnToIdle_response (s : State) : (returnToIdle s).response = s.response := rfl
@[simp] theorem returnToIdle_delivered (s : State) : (returnToIdle s).delivered = s.delivered := rfl
@[simp] theorem returnToIdle_schedule (s : State) : (returnToIdle s).schedule = s.schedule := rfl
@[simp] theorem returnToIdle_freeDrawn (s : State) : (returnToIdle s).freeDrawn = s.freeDrawn := rfl
@[simp] theorem returnToIdle_platform (s : State) : (returnToIdle s).platform = s.platform := rfl

/-! ### resetBlock -/

@[simp] theorem resetBlock_state (s : State) : (resetBlock s).state = .idle := rfl
@[simp] theorem resetBlock_ign (s : State) : (resetBlock s).ign = false := rfl
@[simp] theorem resetBlock_errCode (s : State) : (resetBlock s).errCode = .none := rfl
@[simp] theorem resetBlock_intEn (s : State) : (resetBlock s).intEn = 0 := rfl
@[simp] theorem resetBlock_width (s : State) : (resetBlock s).width = 0 := rfl
@[simp] theorem resetBlock_height (s : State) : (resetBlock s).height = 0 := rfl
@[simp] theorem resetBlock_fmt (s : State) : (resetBlock s).fmt = 0 := rfl
@[simp] theorem resetBlock_srcBase (s : State) : (resetBlock s).srcBase = 0 := rfl
@[simp] theorem resetBlock_tilesX (s : State) : (resetBlock s).tilesX = 0 := rfl
@[simp] theorem resetBlock_tilesY (s : State) : (resetBlock s).tilesY = 0 := rfl
@[simp] theorem resetBlock_tileCount (s : State) : (resetBlock s).tileCount = 0 := rfl
@[simp] theorem resetBlock_tileIndex (s : State) : (resetBlock s).tileIndex = 0 := rfl
@[simp] theorem resetBlock_port (s : State) : (resetBlock s).port = none := rfl
@[simp] theorem resetBlock_hidden (s : State) : (resetBlock s).hidden = [] := rfl
@[simp] theorem resetBlock_srcRace (s : State) : (resetBlock s).srcRace = false := rfl
@[simp] theorem resetBlock_sourceMem (s : State) : (resetBlock s).sourceMem = s.sourceMem := rfl
@[simp] theorem resetBlock_memAnswers (s : State) : (resetBlock s).memAnswers = s.memAnswers := rfl
@[simp] theorem resetBlock_rst (s : State) : (resetBlock s).rst = s.rst := rfl
@[simp] theorem resetBlock_response (s : State) : (resetBlock s).response = s.response := rfl
@[simp] theorem resetBlock_delivered (s : State) : (resetBlock s).delivered = s.delivered := rfl
@[simp] theorem resetBlock_schedule (s : State) : (resetBlock s).schedule = s.schedule := rfl
@[simp] theorem resetBlock_freeDrawn (s : State) : (resetBlock s).freeDrawn = s.freeDrawn := rfl
@[simp] theorem resetBlock_platform (s : State) : (resetBlock s).platform = s.platform := rfl

/-! ### startFresh -/

@[simp] theorem startFresh_state (s : State) : (startFresh s).state = .idle := rfl
@[simp] theorem startFresh_ign (s : State) : (startFresh s).ign = false := rfl
@[simp] theorem startFresh_errCode (s : State) : (startFresh s).errCode = .none := rfl
@[simp] theorem startFresh_intEn (s : State) : (startFresh s).intEn = s.intEn := rfl
@[simp] theorem startFresh_width (s : State) : (startFresh s).width = s.width := rfl
@[simp] theorem startFresh_height (s : State) : (startFresh s).height = s.height := rfl
@[simp] theorem startFresh_fmt (s : State) : (startFresh s).fmt = s.fmt := rfl
@[simp] theorem startFresh_srcBase (s : State) : (startFresh s).srcBase = s.srcBase := rfl
@[simp] theorem startFresh_tilesX (s : State) : (startFresh s).tilesX = s.tilesX := rfl
@[simp] theorem startFresh_tilesY (s : State) : (startFresh s).tilesY = s.tilesY := rfl
@[simp] theorem startFresh_tileCount (s : State) : (startFresh s).tileCount = s.tileCount := rfl
@[simp] theorem startFresh_tileIndex (s : State) : (startFresh s).tileIndex = 0 := rfl
@[simp] theorem startFresh_port (s : State) : (startFresh s).port = none := rfl
@[simp] theorem startFresh_hidden (s : State) : (startFresh s).hidden = [] := rfl
@[simp] theorem startFresh_srcRace (s : State) : (startFresh s).srcRace = false := rfl
@[simp] theorem startFresh_sourceMem (s : State) : (startFresh s).sourceMem = s.sourceMem := rfl
@[simp] theorem startFresh_memAnswers (s : State) : (startFresh s).memAnswers = s.memAnswers := rfl
@[simp] theorem startFresh_rst (s : State) : (startFresh s).rst = s.rst := rfl
@[simp] theorem startFresh_response (s : State) : (startFresh s).response = s.response := rfl
@[simp] theorem startFresh_delivered (s : State) : (startFresh s).delivered = s.delivered := rfl
@[simp] theorem startFresh_schedule (s : State) : (startFresh s).schedule = s.schedule := rfl
@[simp] theorem startFresh_freeDrawn (s : State) : (startFresh s).freeDrawn = s.freeDrawn := rfl
@[simp] theorem startFresh_platform (s : State) : (startFresh s).platform = s.platform := rfl

/-! ### drawTileReads -/

@[simp] theorem drawTileReads_state (s : State) : (drawTileReads s).state = s.state := rfl
@[simp] theorem drawTileReads_ign (s : State) : (drawTileReads s).ign = s.ign := rfl
@[simp] theorem drawTileReads_errCode (s : State) : (drawTileReads s).errCode = s.errCode := rfl
@[simp] theorem drawTileReads_intEn (s : State) : (drawTileReads s).intEn = s.intEn := rfl
@[simp] theorem drawTileReads_width (s : State) : (drawTileReads s).width = s.width := rfl
@[simp] theorem drawTileReads_height (s : State) : (drawTileReads s).height = s.height := rfl
@[simp] theorem drawTileReads_fmt (s : State) : (drawTileReads s).fmt = s.fmt := rfl
@[simp] theorem drawTileReads_srcBase (s : State) : (drawTileReads s).srcBase = s.srcBase := rfl
@[simp] theorem drawTileReads_tilesX (s : State) : (drawTileReads s).tilesX = s.tilesX := rfl
@[simp] theorem drawTileReads_tilesY (s : State) : (drawTileReads s).tilesY = s.tilesY := rfl
@[simp] theorem drawTileReads_tileCount (s : State) : (drawTileReads s).tileCount = s.tileCount := rfl
@[simp] theorem drawTileReads_tileIndex (s : State) : (drawTileReads s).tileIndex = s.tileIndex := rfl
@[simp] theorem drawTileReads_port (s : State) : (drawTileReads s).port = s.port := rfl
@[simp] theorem drawTileReads_hidden (s : State) : (drawTileReads s).hidden = s.hidden := rfl
@[simp] theorem drawTileReads_srcRace (s : State) : (drawTileReads s).srcRace = s.srcRace := rfl
@[simp] theorem drawTileReads_sourceMem (s : State) : (drawTileReads s).sourceMem = s.sourceMem := rfl
@[simp] theorem drawTileReads_memAnswers (s : State) : (drawTileReads s).memAnswers = s.memAnswers := rfl
@[simp] theorem drawTileReads_rst (s : State) : (drawTileReads s).rst = s.rst := rfl
@[simp] theorem drawTileReads_response (s : State) : (drawTileReads s).response = s.response := rfl
@[simp] theorem drawTileReads_delivered (s : State) : (drawTileReads s).delivered = s.delivered := rfl
@[simp] theorem drawTileReads_schedule (s : State) : (drawTileReads s).schedule = s.schedule := rfl
@[simp] theorem drawTileReads_freeDrawn (s : State) :
    (drawTileReads s).freeDrawn =
      if s.srcRace then s.freeDrawn + 192 else s.freeDrawn := rfl
@[simp] theorem drawTileReads_platform (s : State) : (drawTileReads s).platform = s.platform := rfl

/-! ### takeTile -/

@[simp] theorem takeTile_state (t : Tile) (s : State) :
    (takeTile t s).state =
      if s.tileIndex + 1 = s.tileCount then .done else s.state := rfl
@[simp] theorem takeTile_ign (t : Tile) (s : State) : (takeTile t s).ign = s.ign := rfl
@[simp] theorem takeTile_errCode (t : Tile) (s : State) : (takeTile t s).errCode = s.errCode := rfl
@[simp] theorem takeTile_intEn (t : Tile) (s : State) : (takeTile t s).intEn = s.intEn := rfl
@[simp] theorem takeTile_width (t : Tile) (s : State) : (takeTile t s).width = s.width := rfl
@[simp] theorem takeTile_height (t : Tile) (s : State) : (takeTile t s).height = s.height := rfl
@[simp] theorem takeTile_fmt (t : Tile) (s : State) : (takeTile t s).fmt = s.fmt := rfl
@[simp] theorem takeTile_srcBase (t : Tile) (s : State) : (takeTile t s).srcBase = s.srcBase := rfl
@[simp] theorem takeTile_tilesX (t : Tile) (s : State) : (takeTile t s).tilesX = s.tilesX := rfl
@[simp] theorem takeTile_tilesY (t : Tile) (s : State) : (takeTile t s).tilesY = s.tilesY := rfl
@[simp] theorem takeTile_tileCount (t : Tile) (s : State) : (takeTile t s).tileCount = s.tileCount := rfl
@[simp] theorem takeTile_tileIndex (t : Tile) (s : State) : (takeTile t s).tileIndex = s.tileIndex + 1 := rfl
@[simp] theorem takeTile_port (t : Tile) (s : State) : (takeTile t s).port = none := rfl
@[simp] theorem takeTile_hidden (t : Tile) (s : State) : (takeTile t s).hidden = s.hidden := rfl
@[simp] theorem takeTile_srcRace (t : Tile) (s : State) : (takeTile t s).srcRace = s.srcRace := rfl
@[simp] theorem takeTile_sourceMem (t : Tile) (s : State) : (takeTile t s).sourceMem = s.sourceMem := rfl
@[simp] theorem takeTile_memAnswers (t : Tile) (s : State) : (takeTile t s).memAnswers = s.memAnswers := rfl
@[simp] theorem takeTile_rst (t : Tile) (s : State) : (takeTile t s).rst = s.rst := rfl
@[simp] theorem takeTile_response (t : Tile) (s : State) : (takeTile t s).response = s.response := rfl
@[simp] theorem takeTile_delivered (t : Tile) (s : State) : (takeTile t s).delivered = t :: s.delivered := rfl
@[simp] theorem takeTile_schedule (t : Tile) (s : State) : (takeTile t s).schedule = s.schedule := rfl
@[simp] theorem takeTile_freeDrawn (t : Tile) (s : State) : (takeTile t s).freeDrawn = s.freeDrawn := rfl
@[simp] theorem takeTile_platform (t : Tile) (s : State) : (takeTile t s).platform = s.platform := rfl

/-! ### pokeByte -/

@[simp] theorem pokeByte_state (a : Word) (b : Byte) (s : State) : (pokeByte a b s).state = s.state := rfl
@[simp] theorem pokeByte_ign (a : Word) (b : Byte) (s : State) : (pokeByte a b s).ign = s.ign := rfl
@[simp] theorem pokeByte_errCode (a : Word) (b : Byte) (s : State) :
    (pokeByte a b s).errCode = s.errCode := rfl
@[simp] theorem pokeByte_intEn (a : Word) (b : Byte) (s : State) : (pokeByte a b s).intEn = s.intEn := rfl
@[simp] theorem pokeByte_width (a : Word) (b : Byte) (s : State) : (pokeByte a b s).width = s.width := rfl
@[simp] theorem pokeByte_height (a : Word) (b : Byte) (s : State) : (pokeByte a b s).height = s.height := rfl
@[simp] theorem pokeByte_fmt (a : Word) (b : Byte) (s : State) : (pokeByte a b s).fmt = s.fmt := rfl
@[simp] theorem pokeByte_srcBase (a : Word) (b : Byte) (s : State) :
    (pokeByte a b s).srcBase = s.srcBase := rfl
@[simp] theorem pokeByte_tilesX (a : Word) (b : Byte) (s : State) : (pokeByte a b s).tilesX = s.tilesX := rfl
@[simp] theorem pokeByte_tilesY (a : Word) (b : Byte) (s : State) : (pokeByte a b s).tilesY = s.tilesY := rfl
@[simp] theorem pokeByte_tileCount (a : Word) (b : Byte) (s : State) :
    (pokeByte a b s).tileCount = s.tileCount := rfl
@[simp] theorem pokeByte_tileIndex (a : Word) (b : Byte) (s : State) :
    (pokeByte a b s).tileIndex = s.tileIndex := rfl
@[simp] theorem pokeByte_port (a : Word) (b : Byte) (s : State) :
    (pokeByte a b s).port = if racesRun s a.toNat then s.port.map (raceTile s) else s.port := rfl
@[simp] theorem pokeByte_hidden (a : Word) (b : Byte) (s : State) : (pokeByte a b s).hidden = s.hidden := rfl
@[simp] theorem pokeByte_srcRace (a : Word) (b : Byte) (s : State) :
    (pokeByte a b s).srcRace =
      (s.srcRace || racesRun s a.toNat) := rfl
@[simp] theorem pokeByte_sourceMem (a : Word) (b : Byte) (s : State) :
    (pokeByte a b s).sourceMem = Memory.write s.sourceMem a.toNat b := rfl
@[simp] theorem pokeByte_memAnswers (a : Word) (b : Byte) (s : State) :
    (pokeByte a b s).memAnswers = s.memAnswers := rfl
@[simp] theorem pokeByte_rst (a : Word) (b : Byte) (s : State) : (pokeByte a b s).rst = s.rst := rfl
@[simp] theorem pokeByte_response (a : Word) (b : Byte) (s : State) :
    (pokeByte a b s).response = s.response := rfl
@[simp] theorem pokeByte_delivered (a : Word) (b : Byte) (s : State) :
    (pokeByte a b s).delivered = s.delivered := rfl
@[simp] theorem pokeByte_schedule (a : Word) (b : Byte) (s : State) :
    (pokeByte a b s).schedule = s.schedule := rfl
@[simp] theorem pokeByte_freeDrawn (a : Word) (b : Byte) (s : State) :
    (pokeByte a b s).freeDrawn = if racesRun s a.toNat then s.freeDrawn + 192 else s.freeDrawn := rfl
@[simp] theorem pokeByte_platform (a : Word) (b : Byte) (s : State) :
    (pokeByte a b s).platform = s.platform := rfl

/-! ### setMemAnswers -/

@[simp] theorem setMemAnswers_state (l : Bool) (s : State) : (setMemAnswers l s).state = s.state := rfl
@[simp] theorem setMemAnswers_ign (l : Bool) (s : State) : (setMemAnswers l s).ign = s.ign := rfl
@[simp] theorem setMemAnswers_errCode (l : Bool) (s : State) : (setMemAnswers l s).errCode = s.errCode := rfl
@[simp] theorem setMemAnswers_intEn (l : Bool) (s : State) : (setMemAnswers l s).intEn = s.intEn := rfl
@[simp] theorem setMemAnswers_width (l : Bool) (s : State) : (setMemAnswers l s).width = s.width := rfl
@[simp] theorem setMemAnswers_height (l : Bool) (s : State) : (setMemAnswers l s).height = s.height := rfl
@[simp] theorem setMemAnswers_fmt (l : Bool) (s : State) : (setMemAnswers l s).fmt = s.fmt := rfl
@[simp] theorem setMemAnswers_srcBase (l : Bool) (s : State) : (setMemAnswers l s).srcBase = s.srcBase := rfl
@[simp] theorem setMemAnswers_tilesX (l : Bool) (s : State) : (setMemAnswers l s).tilesX = s.tilesX := rfl
@[simp] theorem setMemAnswers_tilesY (l : Bool) (s : State) : (setMemAnswers l s).tilesY = s.tilesY := rfl
@[simp] theorem setMemAnswers_tileCount (l : Bool) (s : State) : (setMemAnswers l s).tileCount = s.tileCount := rfl
@[simp] theorem setMemAnswers_tileIndex (l : Bool) (s : State) : (setMemAnswers l s).tileIndex = s.tileIndex := rfl
@[simp] theorem setMemAnswers_port (l : Bool) (s : State) : (setMemAnswers l s).port = s.port := rfl
@[simp] theorem setMemAnswers_hidden (l : Bool) (s : State) : (setMemAnswers l s).hidden = s.hidden := rfl
@[simp] theorem setMemAnswers_srcRace (l : Bool) (s : State) : (setMemAnswers l s).srcRace = s.srcRace := rfl
@[simp] theorem setMemAnswers_sourceMem (l : Bool) (s : State) : (setMemAnswers l s).sourceMem = s.sourceMem := rfl
@[simp] theorem setMemAnswers_memAnswers (l : Bool) (s : State) : (setMemAnswers l s).memAnswers = l := rfl
@[simp] theorem setMemAnswers_rst (l : Bool) (s : State) : (setMemAnswers l s).rst = s.rst := rfl
@[simp] theorem setMemAnswers_response (l : Bool) (s : State) : (setMemAnswers l s).response = s.response := rfl
@[simp] theorem setMemAnswers_delivered (l : Bool) (s : State) : (setMemAnswers l s).delivered = s.delivered := rfl
@[simp] theorem setMemAnswers_schedule (l : Bool) (s : State) : (setMemAnswers l s).schedule = s.schedule := rfl
@[simp] theorem setMemAnswers_freeDrawn (l : Bool) (s : State) : (setMemAnswers l s).freeDrawn = s.freeDrawn := rfl
@[simp] theorem setMemAnswers_platform (l : Bool) (s : State) : (setMemAnswers l s).platform = s.platform := rfl

/-! ### raceTile: the order and sideband of a tile are unaffected by a race (R74) -/

@[simp] theorem raceTile_index (s : State) (t : Tile) : (raceTile s t).index = t.index := rfl
@[simp] theorem raceTile_row (s : State) (t : Tile) : (raceTile s t).row = t.row := rfl
@[simp] theorem raceTile_col (s : State) (t : Tile) : (raceTile s t).col = t.col := rfl
@[simp] theorem raceTile_last (s : State) (t : Tile) : (raceTile s t).last = t.last := rfl

/-! ### startRun -/

@[simp] theorem startRun_state (s : State) :
    (startRun s).state =
      bif s.width.toNat / Config.block * (s.height.toNat / Config.block) == 0 then .done else .run := rfl
@[simp] theorem startRun_ign (s : State) : (startRun s).ign = s.ign := rfl
@[simp] theorem startRun_errCode (s : State) : (startRun s).errCode = s.errCode := rfl
@[simp] theorem startRun_intEn (s : State) : (startRun s).intEn = s.intEn := rfl
@[simp] theorem startRun_width (s : State) : (startRun s).width = s.width := rfl
@[simp] theorem startRun_height (s : State) : (startRun s).height = s.height := rfl
@[simp] theorem startRun_fmt (s : State) : (startRun s).fmt = s.fmt := rfl
@[simp] theorem startRun_srcBase (s : State) : (startRun s).srcBase = s.srcBase := rfl
@[simp] theorem startRun_tilesX (s : State) :
    (startRun s).tilesX = BitVec.ofNat 32 (s.width.toNat / Config.block) := rfl
@[simp] theorem startRun_tilesY (s : State) :
    (startRun s).tilesY = BitVec.ofNat 32 (s.height.toNat / Config.block) := rfl
@[simp] theorem startRun_tileCount (s : State) :
    (startRun s).tileCount =
      BitVec.ofNat 32 (s.width.toNat / Config.block * (s.height.toNat / Config.block)) := rfl
@[simp] theorem startRun_tileIndex (s : State) : (startRun s).tileIndex = s.tileIndex := rfl
@[simp] theorem startRun_port (s : State) : (startRun s).port = s.port := rfl
@[simp] theorem startRun_hidden (s : State) : (startRun s).hidden = s.hidden := rfl
@[simp] theorem startRun_srcRace (s : State) : (startRun s).srcRace = s.srcRace := rfl
@[simp] theorem startRun_sourceMem (s : State) : (startRun s).sourceMem = s.sourceMem := rfl
@[simp] theorem startRun_memAnswers (s : State) : (startRun s).memAnswers = s.memAnswers := rfl
@[simp] theorem startRun_rst (s : State) : (startRun s).rst = s.rst := rfl
@[simp] theorem startRun_response (s : State) : (startRun s).response = s.response := rfl
@[simp] theorem startRun_delivered (s : State) : (startRun s).delivered = s.delivered := rfl
@[simp] theorem startRun_schedule (s : State) : (startRun s).schedule = s.schedule := rfl
@[simp] theorem startRun_freeDrawn (s : State) : (startRun s).freeDrawn = s.freeDrawn := rfl
@[simp] theorem startRun_platform (s : State) : (startRun s).platform = s.platform := rfl

/-! ### engineLoad -/

@[simp] theorem engineLoad_state (bs : List Byte) (s : State) : (engineLoad bs s).state = s.state := rfl
@[simp] theorem engineLoad_ign (bs : List Byte) (s : State) : (engineLoad bs s).ign = s.ign := rfl
@[simp] theorem engineLoad_errCode (bs : List Byte) (s : State) : (engineLoad bs s).errCode = s.errCode := rfl
@[simp] theorem engineLoad_intEn (bs : List Byte) (s : State) : (engineLoad bs s).intEn = s.intEn := rfl
@[simp] theorem engineLoad_width (bs : List Byte) (s : State) : (engineLoad bs s).width = s.width := rfl
@[simp] theorem engineLoad_height (bs : List Byte) (s : State) : (engineLoad bs s).height = s.height := rfl
@[simp] theorem engineLoad_fmt (bs : List Byte) (s : State) : (engineLoad bs s).fmt = s.fmt := rfl
@[simp] theorem engineLoad_srcBase (bs : List Byte) (s : State) : (engineLoad bs s).srcBase = s.srcBase := rfl
@[simp] theorem engineLoad_tilesX (bs : List Byte) (s : State) : (engineLoad bs s).tilesX = s.tilesX := rfl
@[simp] theorem engineLoad_tilesY (bs : List Byte) (s : State) : (engineLoad bs s).tilesY = s.tilesY := rfl
@[simp] theorem engineLoad_tileCount (bs : List Byte) (s : State) :
    (engineLoad bs s).tileCount = s.tileCount := rfl
@[simp] theorem engineLoad_tileIndex (bs : List Byte) (s : State) :
    (engineLoad bs s).tileIndex = s.tileIndex := rfl
@[simp] theorem engineLoad_port (bs : List Byte) (s : State) :
    (engineLoad bs s).port =
      some { data := packSamples bs, index := s.tileIndex, row := BitVec.ofNat 16 (tileRow s s.tileIndex.toNat), col := BitVec.ofNat 16 (tileCol s s.tileIndex.toNat), last := s.tileIndex.toNat + 1 == s.tileCount.toNat } := rfl
@[simp] theorem engineLoad_hidden (bs : List Byte) (s : State) : (engineLoad bs s).hidden = s.hidden := rfl
@[simp] theorem engineLoad_srcRace (bs : List Byte) (s : State) : (engineLoad bs s).srcRace = s.srcRace := rfl
@[simp] theorem engineLoad_sourceMem (bs : List Byte) (s : State) :
    (engineLoad bs s).sourceMem = s.sourceMem := rfl
@[simp] theorem engineLoad_memAnswers (bs : List Byte) (s : State) : (engineLoad bs s).memAnswers = s.memAnswers := rfl
@[simp] theorem engineLoad_rst (bs : List Byte) (s : State) : (engineLoad bs s).rst = s.rst := rfl
@[simp] theorem engineLoad_response (bs : List Byte) (s : State) :
    (engineLoad bs s).response = s.response := rfl
@[simp] theorem engineLoad_delivered (bs : List Byte) (s : State) :
    (engineLoad bs s).delivered = s.delivered := rfl
@[simp] theorem engineLoad_schedule (bs : List Byte) (s : State) :
    (engineLoad bs s).schedule = s.schedule := rfl
@[simp] theorem engineLoad_freeDrawn (bs : List Byte) (s : State) :
    (engineLoad bs s).freeDrawn =
      if s.srcRace then s.freeDrawn + 192 else s.freeDrawn := rfl
@[simp] theorem engineLoad_platform (bs : List Byte) (s : State) :
    (engineLoad bs s).platform = s.platform := rfl

/-! ### scheduleFirst -/

@[simp] theorem scheduleFirst_state (w : HostWord) (s : State) : (scheduleFirst w s).state = s.state := rfl
@[simp] theorem scheduleFirst_ign (w : HostWord) (s : State) : (scheduleFirst w s).ign = s.ign := rfl
@[simp] theorem scheduleFirst_errCode (w : HostWord) (s : State) :
    (scheduleFirst w s).errCode = s.errCode := rfl
@[simp] theorem scheduleFirst_intEn (w : HostWord) (s : State) : (scheduleFirst w s).intEn = s.intEn := rfl
@[simp] theorem scheduleFirst_width (w : HostWord) (s : State) : (scheduleFirst w s).width = s.width := rfl
@[simp] theorem scheduleFirst_height (w : HostWord) (s : State) : (scheduleFirst w s).height = s.height := rfl
@[simp] theorem scheduleFirst_fmt (w : HostWord) (s : State) : (scheduleFirst w s).fmt = s.fmt := rfl
@[simp] theorem scheduleFirst_srcBase (w : HostWord) (s : State) :
    (scheduleFirst w s).srcBase = s.srcBase := rfl
@[simp] theorem scheduleFirst_tilesX (w : HostWord) (s : State) : (scheduleFirst w s).tilesX = s.tilesX := rfl
@[simp] theorem scheduleFirst_tilesY (w : HostWord) (s : State) : (scheduleFirst w s).tilesY = s.tilesY := rfl
@[simp] theorem scheduleFirst_tileCount (w : HostWord) (s : State) :
    (scheduleFirst w s).tileCount = s.tileCount := rfl
@[simp] theorem scheduleFirst_tileIndex (w : HostWord) (s : State) :
    (scheduleFirst w s).tileIndex = s.tileIndex := rfl
@[simp] theorem scheduleFirst_port (w : HostWord) (s : State) : (scheduleFirst w s).port = s.port := rfl
@[simp] theorem scheduleFirst_hidden (w : HostWord) (s : State) : (scheduleFirst w s).hidden = s.hidden := rfl
@[simp] theorem scheduleFirst_srcRace (w : HostWord) (s : State) :
    (scheduleFirst w s).srcRace = s.srcRace := rfl
@[simp] theorem scheduleFirst_sourceMem (w : HostWord) (s : State) :
    (scheduleFirst w s).sourceMem = s.sourceMem := rfl
@[simp] theorem scheduleFirst_memAnswers (w : HostWord) (s : State) :
    (scheduleFirst w s).memAnswers = s.memAnswers := rfl
@[simp] theorem scheduleFirst_rst (w : HostWord) (s : State) : (scheduleFirst w s).rst = false := rfl
@[simp] theorem scheduleFirst_response (w : HostWord) (s : State) :
    (scheduleFirst w s).response = s.response := rfl
@[simp] theorem scheduleFirst_delivered (w : HostWord) (s : State) :
    (scheduleFirst w s).delivered = s.delivered := rfl
@[simp] theorem scheduleFirst_schedule (w : HostWord) (s : State) :
    (scheduleFirst w s).schedule = .host w :: s.schedule := rfl
@[simp] theorem scheduleFirst_freeDrawn (w : HostWord) (s : State) :
    (scheduleFirst w s).freeDrawn = s.freeDrawn := rfl
@[simp] theorem scheduleFirst_platform (w : HostWord) (s : State) :
    (scheduleFirst w s).platform = s.platform := rfl

end Sys2Proof.Machine
end

