-- ==== Sys2Proof/Laws/Ops.lean ====
section
/-! SUPPORT. What each shared operation over registers, errors and commands can do, said once. -/

namespace Sys2Proof.Machine

/-- In ERROR the first error is kept (R202). -/
theorem raiseError_in_error {c : ErrCode} {s : State} (h : s.state = .error) : raiseError c s = s := if_pos h

/-- Outside ERROR the block enters ERROR with the code, the tile withdrawn and the hidden state discarded (R202). -/
theorem raiseError_outside_error {c : ErrCode} {s : State} (h : s.state ≠ .error) :
    raiseError c s = { s with hidden := [], port := none, state := .error, errCode := c } := if_neg h

/-- A configuration write in RUN (R26). -/
theorem writeConfig_in_run {f : State → State} {s : State} (h : s.state = .run) :
    writeConfig f s = .next (respond .okayWrite (setIgn s)) := by
  simp [writeConfig, h]

/-- A configuration write outside RUN. -/
theorem writeConfig_outside_run {f : State → State} {s : State} (h : s.state ≠ .run) :
    writeConfig f s = .next (respond .okayWrite (f s)) := by
  simp [writeConfig, h]

/-- START in RUN (R103). -/
theorem execStart_in_run {s : State} (h : s.state = .run) :
    execStart s = .next (respond .okayWrite (setIgn s)) := by
  simp [execStart, h]

/-- START outside RUN (R102). -/
theorem execStart_outside_run {s : State} (h : s.state ≠ .run) :
    execStart s = .next (respond .okayWrite (startValidate (startFresh s))) := by
  simp [execStart, h]

/-- START's four outcomes on a fresh state, in the order of the checks (R102, R205). -/
theorem startValidate_cases (s : State) :
    (dimensionsOk s = false ∧ startValidate s = startFail .invalidCarrierDimensions s) ∨
    (dimensionsOk s = true ∧ formatOk s = false ∧ startValidate s = startFail .invalidFormat s) ∨
    (dimensionsOk s = true ∧ formatOk s = true ∧ rangeOk s = false ∧ startValidate s = startFail .addressRange s) ∨
    (dimensionsOk s = true ∧ formatOk s = true ∧ rangeOk s = true ∧ startValidate s = startRun s) := by
  unfold startValidate
  cases dimensionsOk s <;> cases formatOk s <;> cases rangeOk s <;> simp

/-- START's failure on a state outside ERROR, in full. -/
theorem startFail_eq {c : ErrCode} {s : State} (h : s.state ≠ .error) :
    startFail c s =
      { s with tilesX := 0, tilesY := 0, tileCount := 0, hidden := [], port := none, state := .error, errCode := c } :=
  if_neg h

end Sys2Proof.Machine
end

