-- ==== Sys2Proof/Laws/Engine.lean ====
section
/-! SUPPORT. What the engine's and the consumer's operations can do, said once. -/

namespace Sys2Proof.Machine

/-- collect answers exactly when every answer is a value. -/
theorem collect_eq_some_iff {l : List (Option Byte)} {bs : List Byte} :
    collect l = some bs ↔ l = bs.map some := by
  induction l generalizing bs with
  | nil => cases bs <;> simp [collect]
  | cons x l ih =>
    cases x with
    | none => cases bs <;> simp [collect]
    | some b =>
      cases h : collect l with
      | none =>
        have : ∀ cs, l ≠ List.map some cs := fun cs hc => by
          rw [ih.mpr hc] at h; cases h
        cases bs <;> simp [collect, h, this]
      | some cs =>
        cases bs with
        | nil => simp [collect, h]
        | cons d ds =>
          have : l = ds.map some ↔ cs = ds := by rw [← ih, h, Option.some.injEq]
          simp [collect, h, this]

/-- collect has no value exactly when an answer is missing. -/
theorem collect_eq_none_iff {l : List (Option Byte)} : collect l = none ↔ none ∈ l := by
  induction l with
  | nil => simp [collect]
  | cons x l ih =>
    cases x with
    | none => simp [collect]
    | some b => cases h : collect l <;> simp [collect, h, ← ih]

/-- The samples of a tile, one by one (R155). -/
theorem tileSamples_eq_some {s : State} {t : Nat} {bs : List Byte} (h : tileSamples s t = some bs) :
    bs.length = 64 ∧
      ∀ k (hk : k < bs.length), sampleAt s (3 * k) (pixelY s t k) (pixelX s t k) = some bs[k] := by
  have hm := collect_eq_some_iff.mp h
  have hl : bs.length = 64 := by simpa using (congrArg List.length hm).symm
  refine ⟨hl, fun k hk => ?_⟩
  have := congrArg (·[k]?) hm
  simpa [List.getElem?_range (hl ▸ hk), hk] using this

/-- A tile has no value exactly when one of its samples has none (R155). -/
theorem tileSamples_eq_none_iff {s : State} {t : Nat} :
    tileSamples s t = none ↔ ∃ k < 64, sampleAt s (3 * k) (pixelY s t k) (pixelX s t k) = none := by
  simp [tileSamples, collect_eq_none_iff]

/-- Sample k of a packed beat is the k-th sample (R86). -/
theorem packSamples_sample (bs : List Byte) (k : Nat) (hk : k < bs.length) (hl : bs.length ≤ 64) :
    (packSamples bs).extractLsb' (8 * k) 8 = bs[k] := by
  induction bs generalizing k with
  | nil => simp at hk
  | cons b bs ih =>
    have hp : packSamples (b :: bs) = (packSamples bs <<< 8) ||| b.setWidth 512 := rfl
    rw [hp]
    apply BitVec.eq_of_getLsbD_eq
    intro i hi
    cases k with
    | zero =>
      have h1 : i < 512 := by omega
      simp [hi, h1]
    | succ k =>
      have hk' : k < bs.length := by simpa using hk
      have hl' : bs.length ≤ 64 := by simp at hl; omega
      have := congrArg (·.getLsbD i) (ih k hk' hl')
      simp only [BitVec.getLsbD_extractLsb', hi, decide_true, Bool.true_and] at this
      have h1 : 8 * (k + 1) + i < 512 := by simp at hl; omega
      have h2 : ¬ 8 * (k + 1) + i < 8 := by omega
      have h3 : 8 * (k + 1) + i - 8 = 8 * k + i := by omega
      have h4 : b.getLsbD (8 * (k + 1) + i) = false := BitVec.getLsbD_of_ge _ _ (by omega)
      have h5 : (packSamples bs)[8 * k + i] = bs[k][i] := by
        simpa [← BitVec.getLsbD_eq_getElem] using this
      simp [hi, h1, h2, h3, h4, h5]

/-- Sample k of a presented tile in a race is a free value of its own (R74). -/
theorem raceTile_sample (s : State) (t : Tile) {k : Nat} (hk : k < 64) :
    (raceTile s t).sample k = freeSample s (3 * k) := by
  have h := packSamples_sample ((List.range 64).map fun k => freeSample s (3 * k)) k (by simpa) (by simp)
  simpa [raceTile, Tile.sample] using h

/-- Under a race a sample whose bytes can be read is a free value (R62, R74). -/
theorem sampleAt_race {s : State} (hr : s.srcRace = true) (n y x : Nat)
    (h : ∀ j < channels s.fmt, readError s.platform (pixelAddr s y x + j) = false) :
    sampleAt s n y x = some (freeSample s n) := by
  have hm : ∀ j i, j < channels s.fmt → memRead s i (pixelAddr s y x + j) = some (Config.raceByte (s.freeDrawn + i)) :=
    fun j i hj => by simp [memRead, h j hj, oracleByte, hr]
  unfold sampleAt freeSample
  by_cases hc : channels s.fmt = 1
  · simpa [hc] using hm 0 n (by omega)
  · have h3 : channels s.fmt = 3 := by
      unfold channels at hc ⊢
      split <;> simp_all
    have h0 := hm 0 n (by omega)
    simp only [Nat.add_zero] at h0
    simp [hc, h0, hm 1 (n + 1) (by omega), hm 2 (n + 2) (by omega)]

/-- What another agent's write does: one byte of source memory, and the race of R74 where it is one (R38). -/
theorem pokeByte_cases (a : Word) (b : Byte) (s : State) :
    (racesRun s a.toNat = false ∧ pokeByte a b s = { s with sourceMem := Memory.write s.sourceMem a.toNat b }) ∨
    (racesRun s a.toNat = true ∧
      pokeByte a b s =
        { s with sourceMem := Memory.write s.sourceMem a.toNat b, srcRace := true, port := s.port.map (raceTile s),
                 freeDrawn := s.freeDrawn + 192 }) := by
  unfold pokeByte
  cases racesRun s a.toNat <;> simp

/-- A race is a write in RUN inside the active region (R38, R71). -/
theorem racesRun_iff {s : State} {a : Nat} :
    racesRun s a = true ↔ s.state = .run ∧ inActiveRegion s a = true := by
  simp [racesRun]

/-- The engine takes no step when it is not enabled (R157). -/
theorem engineStep_disabled {s : State} (h : engineEnabled s = false) : engineStep s = .next s := by
  simp [engineStep, h]

/-- The engine waits while source memory does not answer (R255). -/
theorem engineStep_unanswered {s : State} (h : s.memAnswers = false) : engineStep s = .next s := by
  simp [engineStep, h]

theorem engineEnabled_iff {s : State} :
    engineEnabled s = true ↔ s.state = .run ∧ s.port = none ∧ s.tileIndex.toNat < s.tileCount.toNat := by
  simp [engineEnabled, State.tValid, and_assoc]

/-- If the engine answers a next state, it was not enabled or memory did not answer, or it presented the next tile, or it
raised SOURCE_READ_ERROR (R157, R158, R160, R255). -/
theorem engineStep_cases {s t : State} (h : engineStep s = .next t) :
    ((engineEnabled s = false ∨ s.memAnswers = false) ∧ t = s) ∨
    (engineEnabled s = true ∧ s.memAnswers = true ∧ s.tilesX ≠ 0 ∧ tileEnd s s.tileIndex.toNat ≤ Config.addrSpace ∧
      ((∃ bs, tileSamples s s.tileIndex.toNat = some bs ∧ t = engineLoad bs s) ∨
       (tileSamples s s.tileIndex.toNat = none ∧ t = raiseError .sourceReadError s))) := by
  unfold engineStep at h
  split at h
  · rename_i hen
    split at h
    · cases h
    · split at h
      · cases h
      · simp only [Bool.and_eq_true] at hen
        refine .inr ⟨hen.1, hen.2, ‹_›, by omega, ?_⟩
        split at h <;> cases h
        · exact .inl ⟨_, ‹_›, rfl⟩
        · exact .inr ⟨‹_›, rfl⟩
  · rename_i hen
    cases h
    simp only [Bool.and_eq_true, not_and, Bool.not_eq_true] at hen
    refine .inl ⟨?_, rfl⟩
    cases h : engineEnabled s
    · exact .inl rfl
    · exact .inr (hen h)

/-- What a consumer step does (R87, R159). -/
theorem consumerStep_cases (tReady : Bool) (s : State) :
    (consumerStep tReady s = s ∧ (s.port = none ∨ tReady = false)) ∨
    ∃ t, s.port = some t ∧ tReady = true ∧ consumerStep tReady s = takeTile t s := by
  unfold consumerStep
  cases hp : s.port <;> cases tReady <;> simp

/-- What a read ahead does: nothing, or one more byte in the hidden state (R37). -/
theorem readAhead_cases (a : Word) (s : State) :
    readAhead a s = s ∨
    ∃ b, s.state = .run ∧ s.memAnswers = true ∧ inActiveRegion s a.toNat = true ∧ memRead s 0 a.toNat = some b ∧
      readAhead a s = { s with hidden := (a.toNat, b) :: s.hidden,
                               freeDrawn := if s.srcRace then s.freeDrawn + 1 else s.freeDrawn } := by
  unfold readAhead
  split
  · rename_i h
    cases hm : memRead s 0 a.toNat with
    | none => exact .inl rfl
    | some b =>
      simp only [Bool.and_eq_true, beq_iff_eq] at h
      exact .inr ⟨b, h.1.1, h.1.2, h.2, rfl, rfl⟩
  · exact .inl rfl

end Sys2Proof.Machine
end

