-- ==== Sys2Proof/Laws/Exec.lean ====
section
/-! SUPPORT. What each instruction answers, in terms of the shared operations, and what an instruction can do, said once. -/

namespace Sys2Proof.Machine

/-! ### One equation per instruction -/

@[simp] theorem exec_busErrSize (we : Bool) (half : Bool) (o : Offset) (s : State) :
    exec (.busErrSize we half o) s = .next (respond .busErr s) := rfl
@[simp] theorem exec_busErrSize3 (we : Bool) (o : Offset) (s : State) :
    exec (.busErrSize3 we o) s = .next (respond .busErr s) := rfl
@[simp] theorem exec_busErrAlign1 (we : Bool) (o : Offset) (s : State) :
    exec (.busErrAlign1 we o) s = .next (respond .busErr s) := rfl
@[simp] theorem exec_busErrAlign2 (we : Bool) (o : Offset) (s : State) :
    exec (.busErrAlign2 we o) s = .next (respond .busErr s) := rfl
@[simp] theorem exec_rdId (s : State) : exec .rdId s = .next (respond (.okayRead Config.idValue) s) := rfl
@[simp] theorem exec_rdCmd (s : State) : exec .rdCmd s = .next (respond (.okayRead 0) s) := rfl
@[simp] theorem exec_rdStatus (s : State) :
    exec .rdStatus s = .next (respond (.okayRead (statusWord s)) s) := rfl
@[simp] theorem exec_rdIntEn (s : State) :
    exec .rdIntEn s = .next (respond (.okayRead (intEnWord s)) s) := rfl
@[simp] theorem exec_rdWidth (s : State) :
    exec .rdWidth s = .next (respond (.okayRead (s.width.setWidth 32)) s) := rfl
@[simp] theorem exec_rdHeight (s : State) :
    exec .rdHeight s = .next (respond (.okayRead (s.height.setWidth 32)) s) := rfl
@[simp] theorem exec_rdFormat (s : State) :
    exec .rdFormat s = .next (respond (.okayRead (s.fmt.setWidth 32)) s) := rfl
@[simp] theorem exec_rdSrcBase (s : State) :
    exec .rdSrcBase s = .next (respond (.okayRead s.srcBase) s) := rfl
@[simp] theorem exec_rdTilesX (s : State) : exec .rdTilesX s = .next (respond (.okayRead s.tilesX) s) := rfl
@[simp] theorem exec_rdTilesY (s : State) : exec .rdTilesY s = .next (respond (.okayRead s.tilesY) s) := rfl
@[simp] theorem exec_rdTileCount (s : State) :
    exec .rdTileCount s = .next (respond (.okayRead s.tileCount) s) := rfl
@[simp] theorem exec_rdTileIndex (s : State) :
    exec .rdTileIndex s = .next (respond (.okayRead s.tileIndex) s) := rfl
@[simp] theorem exec_rdReserved (o : Offset) (s : State) :
    exec (.rdReserved o) s = .next (respond (.okayRead 0) s) := rfl
@[simp] theorem exec_wrId (d : Word) (s : State) : exec (.wrId d) s = .next (respond .okayWrite s) := rfl
@[simp] theorem exec_wrStatus (d : Word) (s : State) :
    exec (.wrStatus d) s = .next (respond .okayWrite s) := rfl
@[simp] theorem exec_wrTilesX (d : Word) (s : State) :
    exec (.wrTilesX d) s = .next (respond .okayWrite s) := rfl
@[simp] theorem exec_wrTilesY (d : Word) (s : State) :
    exec (.wrTilesY d) s = .next (respond .okayWrite s) := rfl
@[simp] theorem exec_wrTileCount (d : Word) (s : State) :
    exec (.wrTileCount d) s = .next (respond .okayWrite s) := rfl
@[simp] theorem exec_wrTileIndex (d : Word) (s : State) :
    exec (.wrTileIndex d) s = .next (respond .okayWrite s) := rfl
@[simp] theorem exec_wrReserved (o : Offset) (d : Word) (s : State) :
    exec (.wrReserved o d) s = .next (respond .okayWrite s) := rfl
@[simp] theorem exec_wrIntEn (d : Word) (s : State) :
    exec (.wrIntEn d) s = .next (respond .okayWrite { s with intEn := intEnField d }) := rfl
@[simp] theorem exec_nop (s : State) : exec .nop s = .next (respond .okayWrite s) := rfl
@[simp] theorem exec_abort (s : State) :
    exec .abort s = .next (respond .okayWrite { returnToIdle (withdrawTile s) with ign := false }) := rfl
@[simp] theorem exec_illegalCmd (w : Word) (s : State) :
    exec (.illegalCmd w) s = .next (respond .okayWrite (raiseError .illegalCommand s)) := rfl
@[simp] theorem exec_wrWidth (d : Word) (s : State) :
    exec (.wrWidth d) s = writeConfig (fun s => { s with width := dimField d }) s := rfl
@[simp] theorem exec_wrHeight (d : Word) (s : State) :
    exec (.wrHeight d) s = writeConfig (fun s => { s with height := dimField d }) s := rfl
@[simp] theorem exec_wrFormat (d : Word) (s : State) :
    exec (.wrFormat d) s = writeConfig (fun s => { s with fmt := chModeField d }) s := rfl
@[simp] theorem exec_wrSrcBase (d : Word) (s : State) :
    exec (.wrSrcBase d) s = writeConfig (fun s => { s with srcBase := d }) s := rfl
@[simp] theorem exec_start (s : State) :
    exec .start s =
      .next (respond .okayWrite (if s.state = .run then setIgn s else startValidate (startFresh s))) := rfl
@[simp] theorem exec_clearErr (s : State) :
    exec .clearErr s =
      .next (respond .okayWrite
        (if s.state = .error then returnToIdle { s with ign := false } else { s with ign := false })) := rfl

/-- A write to CMD is its command's instruction (R125). -/
theorem exec_wrCmd (d : Word) (s : State) : exec (.wrCmd d) s = exec (decodeCmd d) s := by
  show runCommand (decodeCommand d) s = exec (decodeCmd d) s
  unfold decodeCmd
  cases decodeCommand d <;> rfl

/-! ### What an instruction can do -/

/-- The states an instruction can lead to, its response aside: each case says which instruction and when. -/
inductive Effect (s : State) : Instr → State → Prop where
  | unchanged (i : Instr) : Effect s i s
  | ignored (i : Instr) : s.state = .run → Effect s i (setIgn s)
  | intEn (d : Word) : Effect s (.wrIntEn d) { s with intEn := intEnField d }
  | width (d : Word) : s.state ≠ .run → Effect s (.wrWidth d) { s with width := dimField d }
  | height (d : Word) : s.state ≠ .run → Effect s (.wrHeight d) { s with height := dimField d }
  | format (d : Word) : s.state ≠ .run → Effect s (.wrFormat d) { s with fmt := chModeField d }
  | srcBase (d : Word) : s.state ≠ .run → Effect s (.wrSrcBase d) { s with srcBase := d }
  | start : s.state ≠ .run → Effect s .start (startValidate (startFresh s))
  | abort : Effect s .abort { returnToIdle (withdrawTile s) with ign := false }
  | clearError : s.state = .error → Effect s .clearErr (returnToIdle { s with ign := false })
  | clearIgn : s.state ≠ .error → Effect s .clearErr { s with ign := false }
  | illegal (w : Word) : Effect s (.illegalCmd w) (raiseError .illegalCommand s)

/-- A configuration write has one of two effects. -/
theorem writeConfig_effect {i : Instr} {f : State → State} {s : State}
    (h : s.state ≠ .run → Effect s i (f s)) :
    ∃ r u, writeConfig f s = .next (respond r u) ∧ Effect s i u := by
  by_cases hr : s.state = .run
  · exact ⟨_, _, writeConfig_in_run hr, .ignored i hr⟩
  · exact ⟨_, _, writeConfig_outside_run hr, h hr⟩

/-- Every instruction but a write to CMD answers a next state with a response, by one of the effects. -/
theorem exec_effect (i : Instr) (s : State) (hi : ∀ d, i ≠ .wrCmd d) :
    ∃ r u, exec i s = .next (respond r u) ∧ Effect s i u := by
  cases i with
  | busErrSize we half o => exact ⟨_, _, exec_busErrSize we half o s, .unchanged _⟩
  | busErrSize3 we o => exact ⟨_, _, exec_busErrSize3 we o s, .unchanged _⟩
  | busErrAlign1 we o => exact ⟨_, _, exec_busErrAlign1 we o s, .unchanged _⟩
  | busErrAlign2 we o => exact ⟨_, _, exec_busErrAlign2 we o s, .unchanged _⟩
  | rdId => exact ⟨_, _, exec_rdId s, .unchanged _⟩
  | rdCmd => exact ⟨_, _, exec_rdCmd s, .unchanged _⟩
  | rdStatus => exact ⟨_, _, exec_rdStatus s, .unchanged _⟩
  | rdIntEn => exact ⟨_, _, exec_rdIntEn s, .unchanged _⟩
  | rdWidth => exact ⟨_, _, exec_rdWidth s, .unchanged _⟩
  | rdHeight => exact ⟨_, _, exec_rdHeight s, .unchanged _⟩
  | rdFormat => exact ⟨_, _, exec_rdFormat s, .unchanged _⟩
  | rdSrcBase => exact ⟨_, _, exec_rdSrcBase s, .unchanged _⟩
  | rdTilesX => exact ⟨_, _, exec_rdTilesX s, .unchanged _⟩
  | rdTilesY => exact ⟨_, _, exec_rdTilesY s, .unchanged _⟩
  | rdTileCount => exact ⟨_, _, exec_rdTileCount s, .unchanged _⟩
  | rdTileIndex => exact ⟨_, _, exec_rdTileIndex s, .unchanged _⟩
  | wrId d => exact ⟨_, _, exec_wrId d s, .unchanged _⟩
  | wrStatus d => exact ⟨_, _, exec_wrStatus d s, .unchanged _⟩
  | wrTilesX d => exact ⟨_, _, exec_wrTilesX d s, .unchanged _⟩
  | wrTilesY d => exact ⟨_, _, exec_wrTilesY d s, .unchanged _⟩
  | wrTileCount d => exact ⟨_, _, exec_wrTileCount d s, .unchanged _⟩
  | wrTileIndex d => exact ⟨_, _, exec_wrTileIndex d s, .unchanged _⟩
  | rdReserved o => exact ⟨_, _, exec_rdReserved o s, .unchanged _⟩
  | wrReserved o d => exact ⟨_, _, exec_wrReserved o d s, .unchanged _⟩
  | wrCmd d => exact absurd rfl (hi d)
  | wrIntEn d => exact ⟨_, _, exec_wrIntEn d s, .intEn d⟩
  | wrWidth d => exact writeConfig_effect (f := fun s => { s with width := dimField d }) (.width d)
  | wrHeight d => exact writeConfig_effect (f := fun s => { s with height := dimField d }) (.height d)
  | wrFormat d => exact writeConfig_effect (f := fun s => { s with fmt := chModeField d }) (.format d)
  | wrSrcBase d => exact writeConfig_effect (f := fun s => { s with srcBase := d }) (.srcBase d)
  | nop => exact ⟨_, _, exec_nop s, .unchanged _⟩
  | start =>
    by_cases hr : s.state = .run
    · exact ⟨_, _, execStart_in_run hr, .ignored _ hr⟩
    · exact ⟨_, _, execStart_outside_run hr, .start hr⟩
  | abort => exact ⟨_, _, exec_abort s, .abort⟩
  | clearErr =>
    by_cases he : s.state = .error
    · exact ⟨_, _, (exec_clearErr s).trans (by rw [if_pos he]), .clearError he⟩
    · exact ⟨_, _, (exec_clearErr s).trans (by rw [if_neg he]), .clearIgn he⟩
  | illegalCmd w => exact ⟨_, _, exec_illegalCmd w s, .illegal w⟩

/-- The command row of a CMD word is no write to CMD. -/
theorem decodeCmd_ne_wrCmd (w d : Word) : decodeCmd w ≠ .wrCmd d := by
  unfold decodeCmd
  cases decodeCommand w <;> simp

/-- Every instruction answers a next state with a response, by an effect: its own, or that of the command it writes. -/
theorem exec_any_effect (i : Instr) (s : State) : ∃ r u j, exec i s = .next (respond r u) ∧ Effect s j u := by
  by_cases hi : ∃ d, i = .wrCmd d
  · obtain ⟨d, rfl⟩ := hi
    obtain ⟨r, u, h, e⟩ := exec_effect (decodeCmd d) s (decodeCmd_ne_wrCmd d)
    exact ⟨r, u, _, (exec_wrCmd d s).trans h, e⟩
  · obtain ⟨r, u, h, e⟩ := exec_effect i s (fun d hd => hi ⟨d, hd⟩)
    exact ⟨r, u, i, h, e⟩

/-- Every instruction completes: exec answers a next state. -/
theorem exec_next (i : Instr) (s : State) : ∃ t, exec i s = .next t :=
  let ⟨_, _, _, h, _⟩ := exec_any_effect i s
  ⟨_, h⟩

end Sys2Proof.Machine
end

