-- ==== Sys2Proof/Laws/PerInstr.lean ====
section
/-! SUPPORT. Per instruction: the word an instruction is encoded as has the bits that its row of spec/opcode_table.json
fixes ("mask" and "match"). -/

namespace Sys2Proof.Laws.RowPattern

/-- The encoded word of a well-formed instruction fits its row's mask and match. -/
def Statement (i : Instr) : Prop := i.wf = true → i.row.fits (encode i) = true

/-- An offset masked to its lowest bit. -/
theorem offset_and_one (o : Offset) (h : o.getLsbD 0 = true) : o &&& 1 = 1 := by
  apply BitVec.eq_of_getLsbD_eq
  intro i hi
  cases i with
  | zero => simpa using h
  | succ i => simp [BitVec.getLsbD_one]

/-- An offset masked to its two lowest bits. -/
theorem offset_and_three (o : Offset) (v : BitVec 2) (h : o.extractLsb' 0 2 = v) : o &&& 3 = v.setWidth 12 := by
  subst h
  apply BitVec.eq_of_getLsbD_eq
  intro i hi
  have h3 : (3 : Offset) = BitVec.ofNat 12 (2 ^ 2 - 1) := rfl
  simp only [BitVec.getLsbD_and, BitVec.getLsbD_setWidth, BitVec.getLsbD_extractLsb', h3, BitVec.getLsbD_ofNat,
    Nat.testBit_two_pow_sub_one]
  by_cases h : i < 2 <;> simp [h, hi]

/-- A reserved offset is aligned. -/
theorem reserved_aligned {o : Offset} (h : Offset.reserved o = true) : o.extractLsb' 0 2 = 0 := by
  simp only [Offset.reserved, Offset.aligned, Bool.and_eq_true, beq_iff_eq] at h
  exact h.1

theorem busErrSize (we half : Bool) (offset : Offset) : Statement (.busErrSize we half offset) := by
  intro _
  show (descriptor we (if half then 1 else 0) offset &&& descriptor false 2 0 == descriptor false 0 0) = true
  rw [descriptor_and]
  cases half <;> simp

theorem busErrSize3 (we : Bool) (offset : Offset) : Statement (.busErrSize3 we offset) := by
  intro _
  show (descriptor we 3 offset &&& descriptor false 3 0 == descriptor false 3 0) = true
  rw [descriptor_and]
  simp

theorem busErrAlign1 (we : Bool) (offset : Offset) : Statement (.busErrAlign1 we offset) := by
  intro h
  show (descriptor we 2 offset &&& descriptor false 3 1 == descriptor false 2 1) = true
  rw [descriptor_and, offset_and_one offset h]
  simp

theorem busErrAlign2 (we : Bool) (offset : Offset) : Statement (.busErrAlign2 we offset) := by
  intro h
  show (descriptor we 2 offset &&& descriptor false 3 3 == descriptor false 2 2) = true
  rw [descriptor_and, offset_and_three offset 2 (by simpa [Instr.wf] using h)]
  simp

theorem rdId : Statement .rdId := by
  intro _; rfl

theorem wrId (d : Word) : Statement (.wrId d) := by
  intro _; rfl

theorem rdCmd : Statement .rdCmd := by
  intro _; rfl

theorem wrCmd (d : Word) : Statement (.wrCmd d) := by
  intro _; rfl

theorem rdStatus : Statement .rdStatus := by
  intro _; rfl

theorem wrStatus (d : Word) : Statement (.wrStatus d) := by
  intro _; rfl

theorem rdIntEn : Statement .rdIntEn := by
  intro _; rfl

theorem wrIntEn (d : Word) : Statement (.wrIntEn d) := by
  intro _; rfl

theorem rdWidth : Statement .rdWidth := by
  intro _; rfl

theorem wrWidth (d : Word) : Statement (.wrWidth d) := by
  intro _; rfl

theorem rdHeight : Statement .rdHeight := by
  intro _; rfl

theorem wrHeight (d : Word) : Statement (.wrHeight d) := by
  intro _; rfl

theorem rdFormat : Statement .rdFormat := by
  intro _; rfl

theorem wrFormat (d : Word) : Statement (.wrFormat d) := by
  intro _; rfl

theorem rdSrcBase : Statement .rdSrcBase := by
  intro _; rfl

theorem wrSrcBase (d : Word) : Statement (.wrSrcBase d) := by
  intro _; rfl

theorem rdTilesX : Statement .rdTilesX := by
  intro _; rfl

theorem wrTilesX (d : Word) : Statement (.wrTilesX d) := by
  intro _; rfl

theorem rdTilesY : Statement .rdTilesY := by
  intro _; rfl

theorem wrTilesY (d : Word) : Statement (.wrTilesY d) := by
  intro _; rfl

theorem rdTileCount : Statement .rdTileCount := by
  intro _; rfl

theorem wrTileCount (d : Word) : Statement (.wrTileCount d) := by
  intro _; rfl

theorem rdTileIndex : Statement .rdTileIndex := by
  intro _; rfl

theorem wrTileIndex (d : Word) : Statement (.wrTileIndex d) := by
  intro _; rfl

theorem rdReserved (offset : Offset) : Statement (.rdReserved offset) := by
  intro h
  show (descriptor false 2 offset &&& descriptor true 3 3 == descriptor false 2 0) = true
  rw [descriptor_and, offset_and_three offset 0 (reserved_aligned h)]
  simp

theorem wrReserved (offset : Offset) (d : Word) : Statement (.wrReserved offset d) := by
  intro h
  show (descriptor true 2 offset &&& descriptor true 3 3 == descriptor true 2 0) = true
  rw [descriptor_and, offset_and_three offset 0 (reserved_aligned h)]
  simp

theorem nop : Statement .nop := by
  intro _; rfl

theorem start : Statement .start := by
  intro _; rfl

theorem abort : Statement .abort := by
  intro _; rfl

theorem clearErr : Statement .clearErr := by
  intro _; rfl

theorem illegalCmd (word : Word) : Statement (.illegalCmd word) := by
  intro _
  show (word &&& 0 == 0) = true
  simp

end Sys2Proof.Laws.RowPattern
end

