-- ==== Sys2Proof/Laws/Step.lean ====
section
/-! SUPPORT. What a step does with its schedule, and what a step can do, said once. -/

namespace Sys2Proof.Machine

/-- A step takes the head of the schedule. -/
theorem step_cons {s : State} {e : Event} {rest : List Event} (h : s.schedule = e :: rest) :
    step s = runEvent e { s with schedule := rest } := by
  simp [step, nextEvent, h]

/-- With no event left only the block's own engine moves. -/
theorem step_nil {s : State} (h : s.schedule = []) : step s = idleStep s := by
  simp [step, nextEvent, h]

/-- The step of a host word while `rst` = 0. -/
theorem step_host {s : State} {w : HostWord} {rest : List Event} (h : s.schedule = .host w :: rest)
    (hr : s.rst = false) : step s = exec (decodeWord w) { s with schedule := rest } := by
  simp [step_cons h, runEvent, hr, hostAccess]

/-- The very next step after withFetchWord runs the word's instruction (log entry 5). -/
theorem step_withFetchWord {s : State} {nbits w : Nat} {h : HostWord} (hw : hostWordOfBits nbits w = .ok h) :
    step (s.withFetchWord nbits w) = exec (decodeWord h) { s with rst := false } := by
  rw [step_host (w := h) (rest := s.schedule)] <;> simp [State.withFetchWord, hw, scheduleFirst]

/-- What an event can do to the state `s` whose schedule it has already been taken off; nothing, where `rst` = 1 drops it or
it is no access of the block. -/
inductive EventMove (s : State) : Event → State → Prop where
  | still (e : Event) : EventMove s e s
  | host (w : HostWord) (t : State) : s.rst = false → exec (decodeWord w) s = .next t → EventMove s (.host w) t
  | hostBus (we : Bool) (size : Size) (addr : Nat) (d : Word) (x : Descriptor) (t : State) : s.rst = false →
      windowDescriptor s.platform we size addr = some x → exec (decodeBus x d) s = .next t →
      EventMove s (.hostBus we size addr d) t
  | engine (t : State) : s.rst = false → engineStep s = .next t → EventMove s .engine t
  | readAhead (a : Word) : s.rst = false → EventMove s (.readAhead a) (readAhead a s)
  | consumer (l : Bool) : s.rst = false → EventMove s (.consumer l) (consumerStep l s)
  | poke (a : Word) (b : Byte) : EventMove s (.poke a b) (pokeByte a b s)
  | memoryAnswers (l : Bool) : EventMove s (.memoryAnswers l) (setMemAnswers l s)
  | resetPin (l : Bool) : EventMove s (.resetPin l) (setResetPin l s)

/-- An event that answers a next state does what EventMove says. -/
theorem runEvent_cases {e : Event} {s t : State} (h : runEvent e s = .next t) : EventMove s e t := by
  cases hr : s.rst with
  | true =>
    cases e <;> simp [runEvent, hr] at h <;> subst h <;>
      first | exact .poke _ _ | exact .memoryAnswers _ | exact .resetPin _ | exact .still _
  | false =>
    cases e with
    | host w => exact .host w t hr (by simpa [runEvent, hr, hostAccess] using h)
    | hostBus we size addr d =>
      simp only [runEvent, hr, hostBusAccess] at h
      cases hw : windowDescriptor s.platform we size addr with
      | none => simp [hw] at h; subst h; exact .still _
      | some x =>
        exact .hostBus _ _ _ _ x t hr hw (by simpa [hw, hostAccess, show decodeWord (.bus x d) = decodeBus x d from rfl] using h)
    | engine => exact .engine t hr (by simpa [runEvent, hr] using h)
    | readAhead a => simp [runEvent, hr] at h; subst h; exact .readAhead a hr
    | consumer l => simp [runEvent, hr] at h; subst h; exact .consumer l hr
    | samplePort =>
      simp only [runEvent, hr, samplePort] at h
      cases hp : s.port <;> simp [hp] at h
      subst h; exact .still _
    | poke a b => simp [runEvent] at h; subst h; exact .poke a b
    | memoryAnswers l => simp [runEvent] at h; subst h; exact .memoryAnswers l
    | resetPin l => simp [runEvent] at h; subst h; exact .resetPin l

/-- A step whose next event is `e` does what EventMove says of it. -/
theorem step_event_cases {s t : State} {e : Event} {rest : List Event} (h : step s = .next t)
    (hs : s.schedule = e :: rest) : EventMove { s with schedule := rest } e t :=
  runEvent_cases (step_cons hs ▸ h)

/-- What a step can do to the state `s` whose schedule it has already shortened, whatever its event was. -/
inductive Move (s : State) : State → Prop where
  | still : Move s s
  | instr (i : Instr) (t : State) : s.rst = false → exec i s = .next t → Move s t
  | engine (t : State) : s.rst = false → engineStep s = .next t → Move s t
  | readAhead (a : Word) : s.rst = false → Move s (readAhead a s)
  | consumer (l : Bool) : s.rst = false → Move s (consumerStep l s)
  | poke (a : Word) (b : Byte) : Move s (pokeByte a b s)
  | memAnswers (l : Bool) : Move s (setMemAnswers l s)
  | resetPin (l : Bool) : Move s (setResetPin l s)

/-- An event that answers a next state makes one of the moves. -/
theorem runEvent_move {e : Event} {s t : State} (h : runEvent e s = .next t) : Move s t := by
  cases runEvent_cases h with
  | still => exact .still
  | host w _ hr h => exact .instr _ _ hr h
  | hostBus we size addr d x _ hr _ h => exact .instr _ _ hr h
  | engine _ hr h => exact .engine _ hr h
  | readAhead a hr => exact .readAhead a hr
  | consumer l hr => exact .consumer l hr
  | poke a b => exact .poke a b
  | memoryAnswers l => exact .memAnswers l
  | resetPin l => exact .resetPin l

/-- A step that answers a next state makes one of the moves, on the state with the head of its schedule taken off. -/
theorem step_move {s t : State} (h : step s = .next t) : Move { s with schedule := s.schedule.tail } t := by
  cases hs : s.schedule with
  | nil =>
    have hq : ({ s with schedule := [].tail } : State) = s := by rw [List.tail_nil, ← hs]
    rw [hq]
    rw [step_nil hs, idleStep] at h
    cases hr : s.rst with
    | true => rw [hr, if_pos rfl] at h; cases h; exact .still
    | false => exact .engine _ hr (by simpa [hr] using h)
  | cons e rest => exact runEvent_move (step_cons hs ▸ h)

/-- What a change of the reset pin does (R240). -/
theorem setResetPin_cases (l : Bool) (s : State) :
    (setResetPin l s = { resetBlock s with rst := l }) ∨ (l = false ∧ s.rst = false ∧ setResetPin l s = s) := by
  unfold setResetPin
  cases l <;> cases hr : s.rst <;> simp

/-- A run of any machine takes its first step and goes on. -/
theorem machine_run_succ (M : Host.Core) {s t : M.State} (n : Nat) (h : M.step s = .next t) :
    M.run (n + 1) s = M.run n t := by
  rw [show M.run (n + 1) s = match M.step s with
    | .next u => M.run n u
    | .fault f => .fault f
    | .refused r => .refused r from rfl, h]

/-- A run takes its first step and goes on. -/
theorem run_succ_of_step {s t : State} (n : Nat) (h : step s = .next t) :
    Host.Core.run core (n + 1) s = Host.Core.run core n t :=
  machine_run_succ core (s := s) (t := t) n h

/-- A run of no steps ends where it began. -/
theorem run_zero (s : State) : Host.Core.run core 0 s = .next s := rfl

end Sys2Proof.Machine
end

