-- ==== Sys2Proof/Tests/Slice0.lean ====
section
/-! SUPPORT. The model's own tests. Expected values come from the spec: the descriptors of 41_register_access.md, the vectors
V-… and programs P… of 95_test_vectors.md, and the rules' examples. The last part shows, for each statement that has
hypotheses, a state and operands that meet them together. -/

namespace Sys2Proof.Tests

open Sys2Proof Sys2Proof.Machine Sys2Proof.Claims

/-! ### WellFormed: an ill-formed term for each check -/

theorem test_wf_refuses_even_offset_align1 : (Instr.busErrAlign1 true 0x004).wf = false := by decide
theorem test_wf_refuses_aligned_offset_align2 : (Instr.busErrAlign2 true 0x004).wf = false := by decide
theorem test_wf_refuses_odd_offset_align2 : (Instr.busErrAlign2 true 0x007).wf = false := by decide
theorem test_wf_refuses_named_offset_reserved : (Instr.rdReserved 0x02C).wf = false := by decide
theorem test_wf_refuses_unaligned_offset_reserved : (Instr.wrReserved 0x032 0).wf = false := by decide
theorem test_wf_refuses_legal_word_illegal : (Instr.illegalCmd 3).wf = false := by decide

/-! ### Decoding: a word for every row, written out from R81, R83 and the rule of the row -/

theorem test_decode_illegal_accesses :
    decodeTableWord 16 0x4004 = some (.busErrSize true false 0x004) ∧
    decodeTableWord 16 0x1008 = some (.busErrSize false true 0x008) ∧
    decodeTableWord 16 0x3008 = some (.busErrSize3 false 0x008) ∧
    decodeTableWord 16 0x6005 = some (.busErrAlign1 true 0x005) ∧
    decodeTableWord 16 0x2006 = some (.busErrAlign2 false 0x006) := by decide

theorem test_decode_reads :
    decodeTableWord 16 0x2000 = some .rdId ∧ decodeTableWord 16 0x2004 = some .rdCmd ∧
    decodeTableWord 16 0x2008 = some .rdStatus ∧ decodeTableWord 16 0x200C = some .rdIntEn ∧
    decodeTableWord 16 0x2010 = some .rdWidth ∧ decodeTableWord 16 0x2014 = some .rdHeight ∧
    decodeTableWord 16 0x2018 = some .rdFormat ∧ decodeTableWord 16 0x201C = some .rdSrcBase ∧
    decodeTableWord 16 0x2020 = some .rdTilesX ∧ decodeTableWord 16 0x2024 = some .rdTilesY ∧
    decodeTableWord 16 0x2028 = some .rdTileCount ∧ decodeTableWord 16 0x202C = some .rdTileIndex ∧
    decodeTableWord 16 0x2030 = some (.rdReserved 0x030) ∧
    decodeTableWord 16 0x2FFC = some (.rdReserved 0xFFC) := by decide

theorem test_decode_writes :
    decodeBus 0x6000 7 = .wrId 7 ∧ decodeBus 0x6004 7 = .wrCmd 7 ∧ decodeBus 0x6008 7 = .wrStatus 7 ∧
    decodeBus 0x600C 7 = .wrIntEn 7 ∧ decodeBus 0x6010 7 = .wrWidth 7 ∧ decodeBus 0x6014 7 = .wrHeight 7 ∧
    decodeBus 0x6018 7 = .wrFormat 7 ∧ decodeBus 0x601C 7 = .wrSrcBase 7 ∧ decodeBus 0x6020 7 = .wrTilesX 7 ∧
    decodeBus 0x6024 7 = .wrTilesY 7 ∧ decodeBus 0x6028 7 = .wrTileCount 7 ∧ decodeBus 0x602C 7 = .wrTileIndex 7 ∧
    decodeBus 0x6030 7 = .wrReserved 0x030 7 ∧ decodeBus 0x6FFC 7 = .wrReserved 0xFFC 7 := by decide

theorem test_decode_commands :
    decodeTableWord 32 0 = some .nop ∧ decodeTableWord 32 1 = some .start ∧ decodeTableWord 32 2 = some .abort ∧
    decodeTableWord 32 3 = some .clearErr ∧ decodeTableWord 32 7 = some (.illegalCmd 7) ∧
    decodeTableWord 32 0x11 = some (.illegalCmd 0x11) ∧
    decodeTableWord 32 0x80000000 = some (.illegalCmd 0x80000000) := by decide

/-- A number that is no word of a format is refused by name. -/
theorem test_decode_refuses_by_name :
    hostWordOfBits 16 0x8000 = .error (.bitOutsideFormat 16 0x8000) ∧
    hostWordOfBits 24 0 = .error (.noSuchFormat 24) ∧
    hostWordOfBits 48 0x0000_0280_6010 = .ok (.bus 0x6010 640) := by decide

/-! ### Small states -/

/-- A field of the next state. -/
def got {α : Type} (f : State → α) (o : Host.Outcome State Fault Refusal) : Option α :=
  match o with
  | .next t => some (f t)
  | .fault _ => none
  | .refused _ => none

/-- A block configured for a W × H raster. -/
def configured (w h : BitVec 16) (f : BitVec 2) (base : Word) : State :=
  { State.reset with width := w, height := h, fmt := f, srcBase := base }

/-- In RUN over a 16 × 8 GRAY8 raster at 0x1000: two tiles (V-CMD-3). -/
def running : State :=
  { configured 16 8 0 0x1000 with state := .run, tilesX := 2, tilesY := 1, tileCount := 2 }

/-- The same run with its first tile on the port. -/
def presenting : State :=
  { running with port := some { data := 0, index := 0, row := 0, col := 0, last := false } }

/-- In DONE after that run. -/
def finished : State := { running with state := .done, tileIndex := 2 }

/-- In ERROR with INVALID_CARRIER_DIMENSIONS, STATUS 0x13. -/
def failed : State := { configured 12 8 0 0x3000 with state := .error, errCode := .invalidCarrierDimensions }

/-- `n` bytes at rising addresses, byte `i` being `f i`. -/
def bytesFrom (base : Nat) (f : Nat → Byte) (n : Nat) : List Host.Cell :=
  ((List.range n).map fun i => (base + i, f i)).filter fun c => c.2 != 0

/-- The raster of program P1: pixel (y, x) = 16y + x. -/
def p1Memory : List Host.Cell := bytesFrom 0x1000 (fun i => BitVec.ofNat 8 i) 128

/-- The raster of program P2: one RGB888 tile whose pixel 0 is the tie (0, 0, 250). -/
def p2Memory : List Host.Cell :=
  bytesFrom 0x2000 (fun i =>
    let p := i / 3
    if p = 0 then (if i = 2 then 250 else 0)
    else if i % 3 = 0 then BitVec.ofNat 8 (4 * p)
    else if i % 3 = 1 then BitVec.ofNat 8 (255 - 4 * p)
    else BitVec.ofNat 8 (2 * p)) 192

/-- In RUN over P2's raster. -/
def runningP2 (tie : LumaTie) : State :=
  { configured 8 8 1 0x2000 with
      state := .run, tilesX := 1, tilesY := 1, tileCount := 1, sourceMem := p2Memory,
      platform := { Config.defaultPlatform with lumaTie := tie } }

/-! ### Register accesses (95_test_vectors.md V-BUS) -/

theorem test_bus_1_id : got (·.response) (exec .rdId State.reset) = some (some (.okayRead 0xB10C0108)) := by decide
theorem test_bus_4_status_after_reset :
    got (·.response) (exec .rdStatus State.reset) = some (some (.okayRead 0)) := by decide
theorem test_status_13 : got (·.response) (exec .rdStatus failed) = some (some (.okayRead 0x13)) := by decide
theorem test_status_presented : got (·.response) (exec .rdStatus presenting) = some (some (.okayRead 5)) := by decide
theorem test_bus_5_int_en :
    got (fun t => got (·.response) (exec .rdIntEn t)) (exec (.wrIntEn 0xFFFFFFFF) State.reset) =
      some (some (some (.okayRead 3))) := by decide
theorem test_int_en_bit_order : got (·.doneIe) (exec (.wrIntEn 1) State.reset) = some true := by decide
theorem test_bus_6_width : got (·.width) (exec (.wrWidth 0x0001000C) State.reset) = some 12 := by decide
theorem test_bus_7_height : got (·.height) (exec (.wrHeight 480) State.reset) = some 0x1E0 := by decide
theorem test_bus_8_format : got (·.fmt) (exec (.wrFormat 5) State.reset) = some 1 := by decide
theorem test_bus_10_src_base :
    got (·.srcBase) (exec (.wrSrcBase 0x80000001) State.reset) = some 0x80000001 := by decide
theorem test_bus_12_tile_index : got (·.tileIndex) (exec (.wrTileIndex 3) finished) = some 2 := by decide
theorem test_bus_15_byte_write :
    got (fun t => (t.response, t.state)) (exec (decodeBus 0x4004 1) State.reset) =
      some (some .busErr, .idle) := by decide
theorem test_bus_21_width_in_run :
    got (fun t => (t.width, t.ign)) (exec (.wrWidth 8) running) = some (16, true) := by decide
theorem test_bus_22_int_en_in_run :
    got (fun t => (t.intEn, t.ign)) (exec (.wrIntEn 1) running) = some (1, false) := by decide
theorem test_bus_23_status_write : got statusWord (exec (.wrStatus 0) failed) = some 0x13 := by decide
theorem test_bus_24_irq_rises : got (·.irq) (exec (.wrIntEn 1) finished) = some true := by decide

/-! ### Commands (V-CMD, V-CHK) -/

theorem test_cmd_1_nop : got statusWord (exec .nop finished) = some 2 := by decide
theorem test_cmd_3_start :
    got (fun t => (statusWord t, t.tilesX, t.tilesY, t.tileCount, t.tileIndex)) (exec .start (configured 16 8 0 0x1000)) =
      some (1, 2, 1, 2, 0) := by decide
theorem test_cmd_4_start_in_run :
    got (fun t => (t.tileIndex, statusWord t)) (exec .start { running with tileIndex := 1 }) = some (1, 9) := by decide
theorem test_cmd_7_abort :
    got (fun t => (statusWord t, t.tileIndex, t.tileCount, t.port)) (exec .abort { presenting with tileIndex := 1 }) =
      some (0, 0, 2, none) := by decide
theorem test_cmd_10_clear_err : got statusWord (exec .clearErr failed) = some 0 := by decide
theorem test_cmd_11_clear_err_in_run :
    got statusWord (exec .clearErr { running with ign := true }) = some 1 := by decide
theorem test_cmd_13_illegal : got statusWord (exec (.wrCmd 7) State.reset) = some 0x53 := by decide
theorem test_cmd_14_mbz : got statusWord (exec (.wrCmd 0x11) State.reset) = some 0x53 := by decide
theorem test_cmd_16_first_error_kept : got statusWord (exec (.illegalCmd 0xF) failed) = some 0x13 := by decide
theorem test_cmd_17_illegal_in_run :
    got (fun t => (statusWord t, t.tileIndex)) (exec (.illegalCmd 4) { presenting with tileIndex := 1 }) =
      some (0x53, 1) := by decide

theorem test_chk_4_dimensions_first : got statusWord (exec .start (configured 12 8 3 0)) = some 0x13 := by decide
theorem test_chk_6_format_before_range :
    got statusWord (exec .start (configured 8 8 3 0xFFFFFFC1)) = some 0x23 := by decide
theorem test_chk_7_ends_at_top : got statusWord (exec .start (configured 8 8 0 0xFFFFFFC0)) = some 1 := by decide
theorem test_chk_8_past_top : got statusWord (exec .start (configured 8 8 0 0xFFFFFFC1)) = some 0x33 := by decide
theorem test_chk_9_rgb_ends_at_top : got statusWord (exec .start (configured 8 8 1 0xFFFFFF40)) = some 1 := by decide
theorem test_chk_10_rgb_past_top : got statusWord (exec .start (configured 8 8 1 0xFFFFFF41)) = some 0x33 := by decide
theorem test_chk_11_largest_rgb : got statusWord (exec .start (configured 65528 65528 1 0)) = some 0x33 := by decide
theorem test_chk_12_largest_gray :
    got (fun t => (statusWord t, t.tileCount)) (exec .start (configured 65528 65528 0 0)) = some (1, 67092481) := by
  decide
theorem test_chk_13_empty :
    got (fun t => (statusWord t, t.tilesY)) (exec .start (configured 0 64 0 0)) = some (2, 8) := by decide

/-! ### Luma and geometry (V-LUMA, V-GEO) -/

theorem test_luma_primaries :
    luma .halfUp 255 0 0 = 76 ∧ luma .halfUp 0 255 0 = 150 ∧ luma .halfUp 0 0 255 = 29 ∧
      luma .halfUp 200 100 50 = 124 := by decide
theorem test_luma_tie_even : luma .halfUp 0 0 250 = 29 ∧ luma .halfEven 0 0 250 = 28 := by decide
theorem test_luma_tie_odd : luma .halfUp 0 80 110 = 60 ∧ luma .halfEven 0 80 110 = 60 := by decide
theorem test_geo_3_gray_pixel : pixelAddr running 1 3 = 0x1013 := by decide
theorem test_geo_4_rgb_pixel : pixelAddr { running with fmt := 1 } 1 3 = 0x1039 := by decide
theorem test_geo_5_last_sample : pixelAddr running (pixelY running 1 63) (pixelX running 1 63) = 0x107F := by decide

/-! ### Engine, consumer and reset (V-ENG, P1, P2) -/

theorem test_p1_tile_0 :
    got (fun t => t.port.map (·.data)) (engineStep { running with sourceMem := p1Memory }) =
      some (some 0x77767574737271706766656463626160575655545352515047464544434241403736353433323130272625242322212017161514131211100706050403020100) := by
  decide +kernel
theorem test_p1_tile_1_sideband :
    got (fun t => t.port.map fun u => (u.index, u.row, u.col, u.last))
      (engineStep { running with sourceMem := p1Memory, tileIndex := 1 }) = some (some (1, 0, 1, true)) := by
  decide +kernel
theorem test_p2_half_even :
    got (fun t => t.port.map (·.data)) (engineStep (runningP2 .halfEven)) =
      some (some 0x5B5C5D5E5F60616263646566676768696A6B6C6D6E6F70717273737475767778797A7B7C7D7E7F80808182838485868788898A8B8C8C8D8E8F9091929394951C) := by
  decide +kernel
theorem test_eng_3_take :
    got (fun t => (t.tileIndex, statusWord t)) (.next (consumerStep true presenting)) = some (1, 1) := by decide
theorem test_eng_4_take_last :
    got (fun t => (t.tileIndex, statusWord t)) (.next (consumerStep true { presenting with tileIndex := 1 })) =
      some (2, 2) := by decide
theorem test_eng_6_read_error :
    got (fun t => (statusWord t, t.tileIndex))
      (engineStep { running with tileIndex := 1, platform := { Config.defaultPlatform with errorRanges := [(0x1008, 0x1008)] } }) =
      some (0x43, 1) := by decide +kernel
theorem test_eng_8_reset :
    got (fun t => (statusWord t, t.width, t.port)) (.next (setResetPin true presenting)) = some (0, 0, none) := by decide
theorem test_poke_race : (pokeByte 0x107F 1 running).srcRace = true ∧ (pokeByte 0x1080 1 running).srcRace = false := by
  decide
/-- R74: the race leaves the order and sideband of a presented tile. -/
theorem test_poke_race_sideband :
    (pokeByte 0x1000 1 presenting).port.map (fun t => (t.index, t.row, t.col, t.last)) = some (0, 0, 0, false) := by
  decide
/-- R255 (b): a memory that does not answer leaves the run in RUN with no tile. -/
theorem test_hang_memory :
    got statusWord (step { running with schedule := [.memoryAnswers false] }) = some 1 ∧
      got statusWord (step { running with memAnswers := false }) = some 1 := by decide
/-- R91, R206: a wait polls on while the block is held in reset, and ends once STATUS is read. -/
theorem test_wait_done_in_reset :
    got (fun t => (t.response, t.rst))
      (waitDone 2 { State.reset with rst := true, schedule := [.resetPin false] }) =
        some (some (.okayRead 0), false) := by decide
theorem test_fetch_first :
    got statusWord (step (State.reset.withFetchWord 32 7)) = some 0x53 := by decide

/-! ### Witnesses: states that meet the hypotheses of the statements -/

theorem running_inv : BlockInv running where
  errCode_none_iff := by decide
  presented_in_run := by decide
  idle_fresh := by decide
  run_remaining := by decide
  done_all_taken := by decide
  index_le_count := by decide
  grid_bound := by decide
  count_eq := by decide
  run_config := by decide
  presented_is_next := by intro t h; cases h
  reset_held := by intro h; cases h

theorem presenting_inv : BlockInv presenting where
  errCode_none_iff := by decide
  presented_in_run := by decide
  idle_fresh := by decide
  run_remaining := by decide
  done_all_taken := by decide
  index_le_count := by decide
  grid_bound := by decide
  count_eq := by decide
  run_config := by decide
  presented_is_next := by intro t h; cases h; decide
  reset_held := by intro h; cases h

theorem failed_inv : BlockInv failed where
  errCode_none_iff := by decide
  presented_in_run := by decide
  idle_fresh := by decide
  run_remaining := by decide
  done_all_taken := by decide
  index_le_count := by decide
  grid_bound := by decide
  count_eq := by decide
  run_config := by decide
  presented_is_next := by intro t h; cases h
  reset_held := by intro h; cases h

/-- The run whose second tile has an unbacked first byte (P6). -/
def runningP6 : State :=
  { running with tileIndex := 1, platform := { Config.defaultPlatform with errorRanges := [(0x1008, 0x1008)] } }

theorem runningP6_inv : BlockInv runningP6 where
  errCode_none_iff := by decide
  presented_in_run := by decide
  idle_fresh := by decide
  run_remaining := by decide
  done_all_taken := by decide
  index_le_count := by decide
  grid_bound := by decide
  count_eq := by decide
  run_config := by decide
  presented_is_next := by intro t h; cases h
  reset_held := by intro h; cases h

/-- The run in a race: another agent has written its raster. -/
def raced : State := { running with srcRace := true }

theorem raced_inv : BlockInv raced where
  errCode_none_iff := by decide
  presented_in_run := by decide
  idle_fresh := by decide
  run_remaining := by decide
  done_all_taken := by decide
  index_le_count := by decide
  grid_bound := by decide
  count_eq := by decide
  run_config := by decide
  presented_is_next := by intro t h; cases h
  reset_held := by intro h; cases h

theorem running_hidden : HiddenInv running := by intro _ _ c hc; cases hc

theorem running_delivers : DeliversRaster running := by
  intro _ _
  exact ⟨fun t h => (by cases h), fun k t hk => absurd hk (Nat.not_lt_zero k)⟩

theorem running_readable (n : Nat) : TileReadable running n := by
  intro k j _ _ h
  cases h

theorem raced_readable (n : Nat) : TileReadable raced n := by
  intro k j _ _ h
  cases h

theorem running_ready : EngineReady running := by unfold EngineReady; decide

theorem witness_DecodeEncodeRoundTrip :
    (Instr.rdReserved 0x030).wf = true ∧ (Instr.wrReserved 0xFFC 1).wf = true ∧ (Instr.illegalCmd 4).wf = true := by
  decide

theorem witness_StepRunsDecodedInstruction :
    { State.reset with schedule := [.host pseudoStart] }.rst = false ∧
      { State.reset with schedule := [.host pseudoStart] }.schedule = .host pseudoStart :: [] := by decide

theorem witness_HostBusAccessUsesTheWindow :
    let s := { State.reset with schedule := [.hostBus false 2 0xFFF 0] }
    s.rst = false ∧ s.schedule = .hostBus false 2 0xFFF 0 :: [] ∧ 0xFFF = s.platform.regBase + (0xFFF : Offset).toNat ∧
      s.platform.regBase + 4096 ≤ 0x1000 := by decide

theorem witness_IllegalAccessAnswersBusErr :
    descSize 0x4004 ≠ 2 ∧ descSize 0x3008 ≠ 2 ∧ (descSize 0x2006 = 2 ∧ (descOffset 0x2006).extractLsb' 0 2 ≠ 0) := by
  decide

theorem witness_AlignedReadAnswersTheMappedRegister :
    (0x000 : Offset).extractLsb' 0 2 = 0 ∧ (0x02C : Offset).extractLsb' 0 2 = 0 ∧
      (0x030 : Offset).extractLsb' 0 2 = 0 ∧ (0xFFC : Offset).extractLsb' 0 2 = 0 := by decide

/-- For ConfigurationWrites, WriteThenReadReturnsTheField and StartInRunIsDiscarded. -/
theorem witness_configuration_in_and_outside_run : finished.state ≠ .run ∧ running.state = .run := by decide

/-- A state for each clause of StartFollowsItsChecks, at the boundaries of the range check. -/
theorem witness_StartFollowsItsChecks :
    (configured 12 8 3 0).width.toNat % 8 ≠ 0 ∧
    ((configured 8 8 2 0).width.toNat % 8 = 0 ∧ (configured 8 8 2 0).height.toNat % 8 = 0 ∧
      (configured 8 8 2 0).fmt ≠ 0 ∧ (configured 8 8 2 0).fmt ≠ 1) ∧
    (0 < 8 * 8 * 1 ∧ 2 ^ 32 < (configured 8 8 0 0xFFFFFFC1).srcBase.toNat + 8 * 8 * 1) ∧
    (configured 8 8 0 0xFFFFFFC0).srcBase.toNat + 8 * 8 * 1 ≤ 2 ^ 32 ∧
    (configured 0 8 1 0xFFFFFFFF).width.toNat * 8 * 3 = 0 := by decide

theorem witness_StartForgetsEarlierRuns :
    finished.state ≠ .run ∧ (configured 16 8 0 0x1000).state ≠ .run ∧
    finished.width = (configured 16 8 0 0x1000).width ∧ finished.height = (configured 16 8 0 0x1000).height ∧
    finished.fmt = (configured 16 8 0 0x1000).fmt ∧ finished.srcBase = (configured 16 8 0 0x1000).srcBase ∧
    finished.intEn = (configured 16 8 0 0x1000).intEn ∧
    ∃ t t', exec .start finished = .next t ∧ exec .start (configured 16 8 0 0x1000) = .next t' :=
  ⟨by decide, by decide, by decide, by decide, by decide, by decide, by decide, _, _, rfl, rfl⟩

/-- For ClearErrAcknowledges, IllegalCommandEntersError and ErrorEntryKeepsTheFirstError. -/
theorem witness_error_and_not : failed.state = .error ∧ running.state ≠ .error := by decide

/-- For the reserved rows of ConstantReads and ReadOnlyWritesChangeNothing: the first and the last reserved offset; and for
the words of IllegalCommandEntersError. -/
theorem witness_reserved_and_illegal_words :
    0x030 ≤ (0x030 : Offset).toNat ∧ (0x030 : Offset).toNat % 4 = 0 ∧ 0x030 ≤ (0xFFC : Offset).toNat ∧
      (0xFFC : Offset).toNat % 4 = 0 ∧ 3 < (4 : Word).toNat ∧ 3 < (0xFFFFFFFF : Word).toNat := by decide

theorem witness_IgnIsSetOnlyByAccessesIgnoredInRun :
    (∃ t, step { running with schedule := [.host pseudoStart] } = .next t ∧
      { running with schedule := [.host pseudoStart] }.ign = false ∧ t.ign = true) ∧
    running.state = .run ∧ ignoredInRun (.wrCmd 1) = true ∧ (∃ t, exec .start finished = .next t) ∧
    (∃ t, exec .abort finished = .next t) ∧ ∃ t, exec .clearErr finished = .next t :=
  ⟨⟨_, rfl, rfl, rfl⟩, rfl, rfl, ⟨_, rfl⟩, ⟨_, rfl⟩, ⟨_, rfl⟩⟩

theorem witness_OnlyCommandsChangeTheRun :
    isCommand (.wrWidth 8) = false ∧ ∃ t, exec (.wrWidth 8) finished = .next t := ⟨rfl, _, rfl⟩

theorem witness_command_frame : isCommand .start = true := rfl

theorem witness_OnlyOtherAgentsWriteSourceMemory :
    (∃ t, step { running with schedule := [.consumer true] } = .next t) ∧
      ∀ a b rest, { running with schedule := [.consumer true] }.schedule ≠ .poke a b :: rest :=
  ⟨⟨_, rfl⟩, fun _ _ _ h => by cases h⟩

theorem witness_PokeWritesOneByteAndRecordsTheRace :
    Memory.wf { running with schedule := [.poke 0x107F 0] }.sourceMem = true ∧
      { running with schedule := [.poke 0x107F 0] }.schedule = .poke 0x107F 0 :: [] := by decide

/-- For the race clauses of PokeWritesOneByteAndRecordsTheRace: the last byte of the active region, and the first after it. -/
theorem witness_poke_race :
    IsRace presenting 0x107F ∧ ¬ IsRace presenting 0x1080 ∧ running.port = none ∧ presenting.port ≠ none ∧
      presenting.fmt = 0 := by unfold IsRace; decide

/-- For EngineStepsExactlyWhenEnabled (its four cases), EngineLoadPresentsTheNextTile and ReadAheadIsNotObservable. -/
theorem witness_engine_load :
    ¬ EngineReady presenting ∧ BlockInv running ∧ HiddenInv running ∧ running.srcRace = false ∧
      EngineReady running ∧ running.memAnswers = true ∧ TileReadable running running.tileIndex.toNat ∧
      { running with memAnswers := false }.memAnswers = false :=
  ⟨by unfold EngineReady; decide, running_inv, running_hidden, rfl, running_ready, rfl, running_readable _, rfl⟩

theorem witness_EngineFaultRaisesSourceReadError :
    BlockInv runningP6 ∧ EngineReady runningP6 ∧ runningP6.memAnswers = true ∧ 0 < channels runningP6.fmt ∧
      TileByteFails runningP6 runningP6.tileIndex.toNat 0 0 ∧ ¬ TileReadable runningP6 runningP6.tileIndex.toNat :=
  ⟨runningP6_inv, by unfold EngineReady; decide, rfl, by decide, by unfold TileByteFails; decide,
    fun h => h 0 0 (by decide) (by decide) (by unfold TileByteFails; decide)⟩

theorem witness_TakeDeliversThePresentedTile :
    BlockInv presenting ∧ presenting.port ≠ none ∧ presenting.rst = false ∧
      { presenting with schedule := [.consumer true] }.schedule = .consumer true :: [] ∧ running.port = none :=
  ⟨presenting_inv, by decide, rfl, rfl, rfl⟩

theorem witness_luma_clauses :
    (299 * 200 + 587 * 100 + 114 * 50) % 1000 ≠ 500 ∧ (299 * 0 + 587 * 0 + 114 * 250) % 1000 = 500 := by decide

theorem witness_TilesPartitionTheRaster :
    running.width.toNat = 8 * running.tilesX.toNat ∧ running.height.toNat = 8 * running.tilesY.toNat ∧
      7 < running.height.toNat ∧ 15 < running.width.toNat ∧ pixelY running 1 63 = 7 ∧ pixelX running 1 63 = 15 := by
  decide

theorem witness_TileBytesLieInTheActiveRegion :
    BlockInv running ∧ running.state = .run ∧ 1 < running.tileCount.toNat ∧ 0 < channels running.fmt :=
  ⟨running_inv, by decide, by decide, by decide⟩

/-- Two memories that differ only outside the tile. -/
theorem witness_TileDependsOnlyOnItsOwnBytes :
    ∀ k j m, k < 64 → j < channels running.fmt →
      oracleByte running m (pixelAddr running (pixelY running 0 k) (pixelX running 0 k) + j) =
        oracleByte { running with sourceMem := [(0x0FFF, 9)] } m
          (pixelAddr running (pixelY running 0 k) (pixelX running 0 k) + j) := by
  intro k j m _ _
  have h : 0x1000 ≤ pixelAddr running (pixelY running 0 k) (pixelX running 0 k) + j :=
    Nat.le_trans (Nat.le_add_right 0x1000 _) (Nat.le_add_right _ _)
  simp [oracleByte, running, configured, State.reset, Memory.read_cons]
  intro h'
  simp [running, configured, State.reset] at h
  omega

theorem witness_RacedTileHoldsFreeSamples :
    BlockInv raced ∧ raced.srcRace = true ∧ EngineReady raced ∧ raced.memAnswers = true ∧
      TileReadable raced raced.tileIndex.toNat ∧ raced.fmt = 0 :=
  ⟨raced_inv, rfl, by unfold EngineReady; decide, rfl, raced_readable _, rfl⟩

theorem witness_ReadAheadIsNotObservable :
    HiddenInv { running with state := .done, hidden := [(0x1000, 0)] } ∧
    HiddenInv { running with hidden := [(0x1000, 0)] } ∧
    ∃ t, engineStep { running with state := .done, hidden := [(0x1000, 0)] } = .next t := by
  refine ⟨fun h => (by cases h), fun _ _ c hc => ?_, _, rfl⟩
  cases hc with
  | head => decide
  | tail _ h => cases h

theorem witness_PackedBeatIsTileBytes :
    (List.replicate 64 (7 : Byte)).length = 64 ∧
      (Tile.mk (packSamples (List.replicate 64 7)) 0 0 0 false).data = packSamples (List.replicate 64 7) :=
  ⟨by decide, rfl⟩

theorem witness_ResetGivesEveryComponentItsValue :
    { presenting with schedule := [.resetPin true, .resetPin false] }.schedule =
      .resetPin true :: .resetPin false :: [] := rfl

/-- The block held in reset, with one event to come. -/
def held (e : Event) : State := { State.reset with rst := true, schedule := [e] }

theorem held_inv (e : Event) : BlockInv (held e) where
  errCode_none_iff := by simp [held, State.reset]
  presented_in_run := by simp [held, State.reset]
  idle_fresh := by simp [held, State.reset]
  run_remaining := by simp [held, State.reset]
  done_all_taken := by simp [held, State.reset]
  index_le_count := by simp [held, State.reset]
  grid_bound := by simp [held, State.reset]
  count_eq := by simp [held, State.reset]
  run_config := by simp [held, State.reset]
  presented_is_next := by intro t h; cases h
  reset_held := by intro _; exact ⟨rfl, rfl, rfl, rfl, rfl, rfl, rfl, rfl, rfl, rfl, rfl, rfl, rfl, rfl, rfl⟩

theorem witness_ResetHoldsOffEveryAgent :
    { presenting with schedule := [.resetPin true] }.schedule = .resetPin true :: [] ∧
      (held (.host pseudoStart)).rst = true ∧ (held (.host pseudoStart)).schedule = .host pseudoStart :: [] ∧
      (∀ a b, Event.host pseudoStart ≠ .poke a b) ∧ (∀ l, Event.host pseudoStart ≠ .memoryAnswers l) ∧
      ∀ l, Event.host pseudoStart ≠ .resetPin l :=
  ⟨rfl, rfl, rfl, fun _ _ h => by (cases h), fun _ h => by (cases h), fun _ h => by cases h⟩

/-- For the last two clauses of ResetHoldsOffEveryAgent: a write at the last address, and a memory that ceases to answer. -/
theorem witness_reset_outside_events :
    ((held (.poke 0xFFFFFFFF 7)).rst = true ∧ BlockInv (held (.poke 0xFFFFFFFF 7)) ∧
        Memory.wf (held (.poke 0xFFFFFFFF 7)).sourceMem = true ∧
        (held (.poke 0xFFFFFFFF 7)).schedule = .poke 0xFFFFFFFF 7 :: []) ∧
      (held (.memoryAnswers false)).rst = true ∧
      (held (.memoryAnswers false)).schedule = .memoryAnswers false :: [] :=
  ⟨⟨rfl, held_inv _, rfl, rfl⟩, rfl, rfl⟩

theorem failed_clear_inv : BlockInv { failed with schedule := [.host pseudoClearErr] } :=
  { errCode_none_iff := failed_inv.errCode_none_iff, presented_in_run := failed_inv.presented_in_run
    idle_fresh := failed_inv.idle_fresh, run_remaining := failed_inv.run_remaining
    done_all_taken := failed_inv.done_all_taken, index_le_count := failed_inv.index_le_count
    grid_bound := failed_inv.grid_bound, count_eq := failed_inv.count_eq, run_config := failed_inv.run_config
    presented_is_next := failed_inv.presented_is_next, reset_held := failed_inv.reset_held }

theorem witness_ErrorHaltsEngineAndConsumer :
    BlockInv failed ∧ failed.state = .error ∧ failed.schedule = [] ∧
      BlockInv { failed with schedule := [.host pseudoClearErr] } ∧
      ∃ t, step { failed with schedule := [.host pseudoClearErr] } = .next t ∧ t.state ≠ .error :=
  ⟨failed_inv, rfl, rfl, failed_clear_inv, _, rfl, by decide⟩

theorem presenting_abort_inv : BlockInv { presenting with schedule := [.host pseudoAbort] } where
  errCode_none_iff := by decide
  presented_in_run := by decide
  idle_fresh := by decide
  run_remaining := by decide
  done_all_taken := by decide
  index_le_count := by decide
  grid_bound := by decide
  count_eq := by decide
  run_config := by decide
  presented_is_next := by intro t h; cases h; decide
  reset_held := by intro h; cases h

theorem witness_QuiescentStatesAreLeftOnlyByCommandOrReset :
    BlockInv { failed with schedule := [.host pseudoClearErr] } ∧ failed.state ≠ .run ∧
      (∃ t, step { failed with schedule := [.host pseudoClearErr] } = .next t ∧ t.state ≠ failed.state) ∧
      BlockInv failed ∧ ∃ t, step failed = .next t ∧ t.state = failed.state :=
  ⟨failed_clear_inv, by decide, ⟨_, rfl, by decide⟩, failed_inv, _, rfl, rfl⟩

theorem presenting_race_inv : BlockInv { presenting with schedule := [.poke 0x1000 9] } where
  errCode_none_iff := by decide
  presented_in_run := by decide
  idle_fresh := by decide
  run_remaining := by decide
  done_all_taken := by decide
  index_le_count := by decide
  grid_bound := by decide
  count_eq := by decide
  run_config := by decide
  presented_is_next := by intro t h; cases h; decide
  reset_held := by intro h; cases h

/-- The race clause of PresentedTileIsStable: the step leaves a tile presented. -/
theorem witness_presented_tile_in_a_race :
    BlockInv { presenting with schedule := [.poke 0x1000 9] } ∧ IsRace presenting 0x1000 ∧
      ∃ t, step { presenting with schedule := [.poke 0x1000 9] } = .next t ∧ t.port.isSome = true :=
  ⟨presenting_race_inv, by unfold IsRace; decide, _, rfl, by decide⟩

theorem witness_PresentedTileIsStable :
    BlockInv { presenting with schedule := [.host pseudoAbort] } ∧
      ∃ t, step { presenting with schedule := [.host pseudoAbort] } = .next t ∧ t.port = none :=
  ⟨presenting_abort_inv, _, rfl, rfl⟩

/-- For TileIndexCountsTransfers and the invariants that every step keeps. -/
theorem witness_step_of_a_run :
    BlockInv running ∧ HiddenInv running ∧ DeliveredInOrder running ∧ DeliversRaster running ∧
      Memory.wf running.sourceMem = true ∧ running.state = .run ∧ ∃ t, step running = .next t ∧ t.state = .run := by
  refine ⟨running_inv, running_hidden, rfl, running_delivers, rfl, rfl, ?_⟩
  exact ⟨_, rfl, rfl⟩

theorem witness_SamplingAnEmptyPortFaults :
    { running with schedule := [.samplePort] }.schedule = .samplePort :: [] ∧ running.rst = false ∧ running.port = none ∧
      presenting.port ≠ none := ⟨rfl, rfl, rfl, by decide⟩

theorem witness_ConfigPseudoInstructionConfigures :
    { State.reset with schedule := hostSchedule (pseudoConfig 16 8 0 0x1000) ++ [] }.state ≠ .run ∧
      State.reset.rst = false := by decide

theorem witness_PoweredUpMeetsTheInvariants : PoweredUp { State.reset with sourceMem := p1Memory, schedule := [.engine] } :=
  ⟨Config.defaultPlatform, p1Memory, true, [.engine], by decide +kernel, rfl⟩

/-- A run whose memory has ceased to answer. -/
def unanswered : State := { running with memAnswers := false }

theorem unanswered_inv : BlockInv unanswered :=
  { errCode_none_iff := running_inv.errCode_none_iff, presented_in_run := running_inv.presented_in_run
    idle_fresh := running_inv.idle_fresh, run_remaining := running_inv.run_remaining
    done_all_taken := running_inv.done_all_taken, index_le_count := running_inv.index_le_count
    grid_bound := running_inv.grid_bound, count_eq := running_inv.count_eq, run_config := running_inv.run_config
    presented_is_next := running_inv.presented_is_next, reset_held := running_inv.reset_held }

/-- Both hangs of RunWaitsForConsumerAndMemory, and a host word and a reset that end one. -/
theorem witness_RunWaitsForConsumerAndMemory :
    (BlockInv presenting ∧ presenting.state = .run ∧ presenting.port ≠ none ∧ step presenting = .next presenting) ∧
    (BlockInv unanswered ∧ unanswered.state = .run ∧ unanswered.port = none ∧ unanswered.memAnswers = false ∧
      step unanswered = .next unanswered) ∧
    nextInstr presenting = none ∧ nextInstr unanswered = none ∧ presenting.schedule = [] ∧ unanswered.schedule = [] ∧
    unanswered.rst = false ∧ decodeWord (.cmd 2) = .abort ∧
    { unanswered with schedule := [.host (.cmd 2)] }.schedule = .host (.cmd 2) :: [] ∧
    { unanswered with schedule := [.resetPin true] }.schedule = .resetPin true :: [] :=
  ⟨⟨presenting_inv, rfl, by decide, rfl⟩, ⟨unanswered_inv, rfl, rfl, rfl, rfl⟩, rfl, rfl, rfl, rfl, rfl, by decide, rfl, rfl⟩

/-- The one tile of a raster of zeros, presented, with the consumer ready: the step that ends its run. -/
def presentingLast : State :=
  { configured 8 8 0 0x1000 with
      state := .run, tilesX := 1, tilesY := 1, tileCount := 1, schedule := [.consumer true],
      port := some { data := 0, index := 0, row := 0, col := 0, last := true } }

theorem presentingLast_inv : BlockInv presentingLast where
  errCode_none_iff := by decide
  presented_in_run := by decide
  idle_fresh := by decide
  run_remaining := by decide
  done_all_taken := by decide
  index_le_count := by decide
  grid_bound := by decide
  count_eq := by decide
  run_config := by decide
  presented_is_next := by intro t h; cases h; decide
  reset_held := by intro h; cases h

theorem presentingLast_delivers : DeliversRaster presentingLast := by
  intro _ _
  refine ⟨fun t h => ?_, fun k t hk => absurd hk (Nat.not_lt_zero k)⟩
  cases h
  intro r c _ _
  simp [Tile.cell, Tile.sample, rasterSample, presentingLast, configured, State.reset, Config.unlistedByte]

/-- For the second part of StepKeepsDeliveredTilesTheRaster. -/
theorem witness_StepKeepsDeliveredTilesTheRaster :
    BlockInv presentingLast ∧ HiddenInv presentingLast ∧ Memory.wf presentingLast.sourceMem = true ∧
      DeliversRaster presentingLast ∧ DeliveredInOrder presentingLast ∧ presentingLast.state = .run ∧
      presentingLast.srcRace = false ∧ ∃ t, step presentingLast = .next t ∧ t.state = .done ∧ 0 < t.tileCount.toNat :=
  ⟨presentingLast_inv, fun _ _ c hc => (by cases hc), rfl, presentingLast_delivers, rfl, rfl, rfl, _, rfl, rfl, by decide⟩

theorem running_rounds_inv : BlockInv { running with schedule := loadTakeRounds 2 ++ [] } where
  errCode_none_iff := by decide
  presented_in_run := by decide
  idle_fresh := by decide
  run_remaining := by decide
  done_all_taken := by decide
  index_le_count := by decide
  grid_bound := by decide
  count_eq := by decide
  run_config := by decide
  presented_is_next := by intro t h; cases h
  reset_held := by intro h; cases h

theorem witness_RunReachesDoneDeliveringTheRaster :
    let s := { running with schedule := loadTakeRounds 2 ++ [] }
    BlockInv s ∧ HiddenInv s ∧ s.state = .run ∧ s.port = none ∧ s.rst = false ∧ s.memAnswers = true ∧
      (∀ n, s.tileIndex.toNat ≤ n → n < s.tileCount.toNat → TileReadable s n) ∧
      s.schedule = loadTakeRounds (s.tileCount.toNat - s.tileIndex.toNat) ++ [] :=
  ⟨running_rounds_inv, (by intro _ _ c hc; cases hc), rfl, rfl, rfl, rfl, (by intro n _ _ k j _ _ h; cases h), rfl⟩

/-- For OnlyAPrematureSampleFaults: a step that goes on and one that faults. -/
theorem witness_OnlyAPrematureSampleFaults :
    BlockInv failed ∧ StepGoesOn failed ∧ step { running with schedule := [.samplePort] } = .fault .portHasNoValue :=
  ⟨failed_inv, ⟨_, rfl⟩, rfl⟩

end Sys2Proof.Tests
end

