-- ==== Sys2Proof/Proofs/StartForgets.lean ====
section
/-! PROOF. START outside RUN reads the configuration registers only and overwrites every other component of the block
(R14, R102). -/

namespace Sys2Proof.Machine

/-- Two states hold the same values in the configuration registers (R28 to R32). -/
structure SameConfig (s s' : State) : Prop where
  width : s.width = s'.width
  height : s.height = s'.height
  fmt : s.fmt = s'.fmt
  srcBase : s.srcBase = s'.srcBase
  intEn : s.intEn = s'.intEn

/-- Two states agree in every component of the block: they can differ in source memory, the inputs, the platform and the
records of the agents outside only. -/
def SameBlock (t t' : State) : Prop :=
  { t with sourceMem := t'.sourceMem, memAnswers := t'.memAnswers, rst := t'.rst, response := t'.response,
           delivered := t'.delivered, schedule := t'.schedule, freeDrawn := t'.freeDrawn,
           platform := t'.platform } = t'

/-- The response is no component of the block. -/
theorem SameBlock.respond_congr {t t' : State} (r r' : BusResponse) (h : SameBlock t t') :
    SameBlock (respond r t) (respond r' t') :=
  congrArg (respond r') h

/-! ### START's checks read the configuration registers only -/

theorem SameConfig.startFresh_congr {s s' : State} (h : SameConfig s s') : SameConfig (startFresh s) (startFresh s') :=
  ⟨h.width, h.height, h.fmt, h.srcBase, h.intEn⟩

theorem SameConfig.dimensionsOk_eq {s s' : State} (h : SameConfig s s') : dimensionsOk s = dimensionsOk s' := by
  simp [dimensionsOk, h.width, h.height]

theorem SameConfig.formatOk_eq {s s' : State} (h : SameConfig s s') : formatOk s = formatOk s' := by
  simp [formatOk, h.fmt]

theorem SameConfig.rasterBytes_eq {s s' : State} (h : SameConfig s s') : rasterBytes s = rasterBytes s' := by
  simp [rasterBytes, h.width, h.height, h.fmt]

theorem SameConfig.rangeOk_eq {s s' : State} (h : SameConfig s s') : rangeOk s = rangeOk s' := by
  simp [rangeOk, h.rasterBytes_eq, h.srcBase]

/-! ### START's outcomes overwrite the geometry, which its fresh state still holds -/

theorem SameConfig.sameBlock_startFail {s s' : State} (h : SameConfig s s') (c : ErrCode) :
    SameBlock (startFail c (startFresh s)) (startFail c (startFresh s')) := by
  have fresh_ne (u : State) : (startFresh u).state ≠ .error := by simp
  rw [startFail_eq (fresh_ne s), startFail_eq (fresh_ne s')]
  simp [SameBlock, h.width, h.height, h.fmt, h.srcBase, h.intEn]

theorem SameConfig.sameBlock_startRun {s s' : State} (h : SameConfig s s') :
    SameBlock (startRun (startFresh s)) (startRun (startFresh s')) := by
  simp [SameBlock, startRun, h.width, h.height, h.fmt, h.srcBase, h.intEn]

/-- Each check passes for both states or fails for both, so START takes the same one of its four outcomes (R205). -/
theorem SameConfig.sameBlock_startValidate {s s' : State} (h : SameConfig s s') :
    SameBlock (startValidate (startFresh s)) (startValidate (startFresh s')) := by
  have hf := h.startFresh_congr
  unfold startValidate
  rw [hf.dimensionsOk_eq, hf.formatOk_eq, hf.rangeOk_eq]
  split_ifs
  · exact h.sameBlock_startFail .invalidCarrierDimensions
  · exact h.sameBlock_startFail .invalidFormat
  · exact h.sameBlock_startFail .addressRange
  · exact h.sameBlock_startRun

/-- Settles O21: START's checks agree, and each of its outcomes overwrites what an earlier run left. -/
theorem startForgetsEarlierRuns : Obligations.StartForgetsEarlierRuns := by
  intro s s' t t' hs hs' hwidth hheight hfmt hsrcBase hintEn ht ht'
  have hconfig : SameConfig s s' := ⟨hwidth, hheight, hfmt, hsrcBase, hintEn⟩
  obtain rfl : respond .okayWrite (startValidate (startFresh s)) = t := by simpa [hs] using ht
  obtain rfl : respond .okayWrite (startValidate (startFresh s')) = t' := by simpa [hs'] using ht'
  exact hconfig.sameBlock_startValidate.respond_congr .okayWrite .okayWrite

end Sys2Proof.Machine
end

