-- ==== Sys2Proof/Proofs/IrqAndIgn.lean ====
section
/-! PROOF. The interrupt output is a level of STATE and the enables (R39, R211); which steps set IGN and which clear it (R26):
what each shared operation does to IGN, then each instruction and each agent's step. -/

namespace Sys2Proof.Machine

open Claims

/-! ### The interrupt output -/

/-- `irq` is 1 exactly where an enabled cause's state holds (R28, R39). -/
theorem irq_iff {s : State} :
    s.irq = true ↔ (s.intEn.getLsbD 0 = true ∧ s.state = .done) ∨ (s.intEn.getLsbD 1 = true ∧ s.state = .error) := by
  simp only [State.irq, State.doneIe, State.errIe, Bool.or_eq_true, Bool.and_eq_true, beq_iff_eq]

/-- Setting IGN is no cause of an interrupt (R26, R39). -/
@[simp] theorem setIgn_irq (s : State) : (setIgn s).irq = s.irq := rfl

/-- STATE has one value, so the two causes exclude each other (R25). -/
theorem not_done_and_error (s : State) : ¬ (s.state = .done ∧ s.state = .error) := fun ⟨hdone, herror⟩ => by
  cases hdone.symm.trans herror

/-- Settles O31: the level by its two causes, and at reset neither is enabled. -/
theorem irqIsALevelOfStateAndEnables : Obligations.IrqIsALevelOfStateAndEnables :=
  ⟨fun _ => irq_iff, not_done_and_error, rfl⟩

/-! ### What the shared operations do to IGN -/

@[simp] theorem raiseError_ign (c : ErrCode) (s : State) : (raiseError c s).ign = s.ign := by
  by_cases h : s.state = .error
  · rw [raiseError_in_error h]
  · rw [raiseError_outside_error h]

@[simp] theorem startFail_ign (c : ErrCode) (s : State) : (startFail c s).ign = s.ign :=
  raiseError_ign c _

@[simp] theorem startValidate_ign (s : State) : (startValidate s).ign = s.ign := by
  obtain ⟨-, h⟩ | ⟨-, -, h⟩ | ⟨-, -, -, h⟩ | ⟨-, -, -, h⟩ := startValidate_cases s <;> simp [h]

@[simp] theorem readAhead_ign (a : Word) (s : State) : (readAhead a s).ign = s.ign := by
  obtain h | ⟨b, -, -, -, -, h⟩ := readAhead_cases a s <;> rw [h]

@[simp] theorem consumerStep_ign (l : Bool) (s : State) : (consumerStep l s).ign = s.ign := by
  obtain ⟨h, -⟩ | ⟨t, -, -, h⟩ := consumerStep_cases l s
  · rw [h]
  · rw [h, takeTile_ign]

theorem engineStep_ign {s t : State} (h : engineStep s = .next t) : t.ign = s.ign := by
  obtain ⟨-, rfl⟩ | ⟨-, -, -, -, ⟨bs, -, rfl⟩ | ⟨-, rfl⟩⟩ := engineStep_cases h
  · rfl
  · exact engineLoad_ign bs s
  · exact raiseError_ign .sourceReadError s

/-- A change of the reset pin never sets IGN: it clears IGN where the block is reset (R40, R240). -/
theorem ign_of_setResetPin {l : Bool} {s : State} (h : (setResetPin l s).ign = true) : s.ign = true := by
  obtain hreset | ⟨-, -, hkept⟩ := setResetPin_cases l s
  · simp [hreset] at h
  · rwa [hkept] at h

theorem setResetPin_true_ign (s : State) : (setResetPin true s).ign = false := rfl

/-! ### What an instruction does to IGN -/

/-- The accesses ignored in RUN (R26, R103, R125): the writes to WIDTH, HEIGHT, FORMAT and SRC_BASE, START, and a write to
CMD of START's word. -/
theorem ignoredInRun_cases {i : Instr} (h : ignoredInRun i = true) :
    (∃ d, i = .wrWidth d ∨ i = .wrHeight d ∨ i = .wrFormat d ∨ i = .wrSrcBase d) ∨ i = .start ∨ i = .wrCmd 1 := by
  cases i with
  | wrWidth d => exact .inl ⟨d, .inl rfl⟩
  | wrHeight d => exact .inl ⟨d, .inr (.inl rfl)⟩
  | wrFormat d => exact .inl ⟨d, .inr (.inr (.inl rfl))⟩
  | wrSrcBase d => exact .inl ⟨d, .inr (.inr (.inr rfl))⟩
  | start => exact .inr (.inl rfl)
  | wrCmd d => exact .inr (.inr (congrArg Instr.wrCmd (eq_of_beq h)))
  | _ => cases h

/-- Where the command that a write to CMD writes is ignored in RUN, so is the write (R83, R125). -/
theorem ignoredInRun_wrCmd {d : Word} (h : ignoredInRun (decodeCmd d) = true) : ignoredInRun (.wrCmd d) = true := by
  obtain ⟨-, hc⟩ | ⟨rfl, -⟩ | ⟨-, hc⟩ | ⟨-, hc⟩ | ⟨-, hc⟩ := decodeCommand_cases d
  case inr.inl => rfl
  all_goals
    rw [decodeCmd, hc] at h
    cases h

/-- In RUN an ignored access answers OKAY, sets IGN and changes nothing else (R26). -/
theorem exec_ignored_in_run {i : Instr} {s : State} (hi : ignoredInRun i = true) (hr : s.state = .run) :
    exec i s = .next (respond .okayWrite (setIgn s)) := by
  obtain ⟨d, rfl | rfl | rfl | rfl⟩ | rfl | rfl := ignoredInRun_cases hi
  · rw [exec_wrWidth, writeConfig_in_run hr]
  · rw [exec_wrHeight, writeConfig_in_run hr]
  · rw [exec_wrFormat, writeConfig_in_run hr]
  · rw [exec_wrSrcBase, writeConfig_in_run hr]
  · exact execStart_in_run hr
  · exact execStart_in_run hr

theorem start_outside_run_ign {s t : State} (hr : s.state ≠ .run) (h : exec .start s = .next t) : t.ign = false := by
  cases (execStart_outside_run hr).symm.trans h
  simp

theorem abort_ign {s t : State} (h : exec .abort s = .next t) : t.ign = false := by
  cases h
  rfl

theorem clearErr_ign {s t : State} (h : exec .clearErr s = .next t) : t.ign = false := by
  rw [exec_clearErr] at h
  cases h
  split_ifs <;> rfl

/-- The instructions that are no write to CMD and never ignored leave IGN at 0. -/
theorem exec_not_ignored_ign {i : Instr} {s t : State} (hcmd : ∀ d, i ≠ .wrCmd d) (hi : ignoredInRun i ≠ true)
    (h : exec i s = .next t) (hs : s.ign = false) : t.ign = false := by
  cases i with
  | wrWidth d => exact absurd rfl hi
  | wrHeight d => exact absurd rfl hi
  | wrFormat d => exact absurd rfl hi
  | wrSrcBase d => exact absurd rfl hi
  | start => exact absurd rfl hi
  | wrCmd d => exact absurd rfl (hcmd d)
  | abort => exact abort_ign h
  | clearErr => exact clearErr_ign h
  | illegalCmd w =>
    cases h
    exact (raiseError_ign .illegalCommand s).trans hs
  | _ =>
    cases h
    exact hs

/-- Outside RUN no effect of an instruction sets IGN. -/
theorem Effect.ign_outside_run {i : Instr} {s u : State} (e : Effect s i u) (hr : s.state ≠ .run)
    (hs : s.ign = false) : u.ign = false := by
  cases e with
  | ignored i hrun => exact absurd hrun hr
  | start _ => simp
  | abort => rfl
  | clearError _ => rfl
  | clearIgn _ => rfl
  | illegal w => exact (raiseError_ign .illegalCommand s).trans hs
  | _ => exact hs

/-- An instruction that sets IGN is an access ignored in RUN: its own row, or the command that it writes to CMD. -/
theorem exec_sets_ign {i : Instr} {s t : State} (h : exec i s = .next t) (hs : s.ign = false) (ht : t.ign = true) :
    s.state = .run ∧ ignoredInRun i = true := by
  have not_clear : t.ign ≠ false := by simp [ht]
  constructor
  · by_contra hr
    obtain ⟨r, u, j, hnext, e⟩ := exec_any_effect i s
    cases hnext.symm.trans h
    exact not_clear (e.ign_outside_run hr hs)
  · by_contra hi
    by_cases hcmd : ∃ d, i = .wrCmd d
    · obtain ⟨d, rfl⟩ := hcmd
      exact not_clear (exec_not_ignored_ign (decodeCmd_ne_wrCmd d) (mt ignoredInRun_wrCmd hi)
        (exec_wrCmd d s ▸ h) hs)
    · exact not_clear (exec_not_ignored_ign (not_exists.mp hcmd) hi h hs)

/-! ### What a step does to IGN -/

theorem nextInstr_host {s : State} {w : HostWord} {rest : List Event} (h : s.schedule = .host w :: rest) :
    nextInstr s = some (decodeWord w) := by
  simp [nextInstr, h]

theorem nextInstr_hostBus {s : State} {we : Bool} {size : Size} {addr : Nat} {d : Word} {x : Descriptor}
    {rest : List Event} (h : s.schedule = .hostBus we size addr d :: rest)
    (hx : windowDescriptor s.platform we size addr = some x) : nextInstr s = some (decodeBus x d) := by
  simp [nextInstr, h, hx]

/-- With no event left the engine's step leaves IGN as it is. -/
theorem idleStep_ign {s t : State} (h : idleStep s = .next t) : t.ign = s.ign := by
  unfold idleStep at h
  split at h
  · cases h
    rfl
  · exact engineStep_ign h

/-- An event that sets IGN is a host access ignored in RUN (R26); every other agent's event keeps IGN or clears it. -/
theorem event_sets_ign {s t : State} {e : Event} {rest : List Event} (he : s.schedule = e :: rest)
    (m : EventMove { s with schedule := rest } e t) (hs : s.ign = false) (ht : t.ign = true) :
    s.state = .run ∧ ∃ i, nextInstr s = some i ∧ ignoredInRun i = true := by
  have not_kept : t.ign ≠ s.ign := by simp [hs, ht]
  cases m with
  | host w _ _ h =>
    obtain ⟨hrun, hi⟩ := exec_sets_ign h hs ht
    exact ⟨hrun, _, nextInstr_host he, hi⟩
  | hostBus we size addr d x _ _ hx h =>
    obtain ⟨hrun, hi⟩ := exec_sets_ign h hs ht
    exact ⟨hrun, _, nextInstr_hostBus he hx, hi⟩
  | still _ => exact absurd rfl not_kept
  | engine _ _ h => exact absurd (engineStep_ign h) not_kept
  | readAhead a _ => exact absurd (readAhead_ign a _) not_kept
  | consumer l _ => exact absurd (consumerStep_ign l _) not_kept
  | poke a b => exact absurd (pokeByte_ign a b _) not_kept
  | memoryAnswers l => exact absurd (setMemAnswers_ign l _) not_kept
  | resetPin l => exact absurd (ht.trans (ign_of_setResetPin ht).symm) not_kept

/-- A step that sets IGN is, in RUN, a host access ignored there (R26). -/
theorem step_sets_ign {s t : State} (h : step s = .next t) (hs : s.ign = false) (ht : t.ign = true) :
    s.state = .run ∧ ∃ i, nextInstr s = some i ∧ ignoredInRun i = true := by
  cases he : s.schedule with
  | nil => simp [idleStep_ign (step_nil he ▸ h), hs] at ht
  | cons e rest => exact event_sets_ign he (step_event_cases h he) hs ht

/-- Settles O26, clause by clause: the steps that set IGN, the ignored accesses in RUN, and START, ABORT, CLEAR_ERR and
reset, which leave it 0. -/
theorem ignIsSetOnlyByAccessesIgnoredInRun : Obligations.IgnIsSetOnlyByAccessesIgnoredInRun :=
  ⟨fun _ _ => step_sets_ign, fun _ s hr hi => ⟨exec_ignored_in_run hi hr, setIgn_irq s⟩,
    fun _ _ => start_outside_run_ign, fun _ _ => abort_ign, fun _ _ => clearErr_ign, setResetPin_true_ign⟩

end Sys2Proof.Machine
end

