-- ==== Sys2Proof/Proofs/SourceMemAndDelivery.lean ====
section
/-! PROOF. The two records that a step keeps beside the block: source memory, which only another agent's write changes (R63),
and the tiles taken, to which only a transfer adds one, the next in index order (R76, R159). -/

namespace Sys2Proof.Machine

/-! ### The frames of the error entry and of START's validation -/

/-- The error entry keeps every field but STATE, ERR_CODE, the port and the hidden state (R202). -/
theorem raiseError_frame (c : ErrCode) (s : State) :
    raiseError c s =
      { s with state := (raiseError c s).state, errCode := (raiseError c s).errCode,
               port := (raiseError c s).port, hidden := (raiseError c s).hidden } := by
  by_cases h : s.state = .error
  · rw [raiseError_in_error h]
  · rw [raiseError_outside_error h]

@[simp] theorem raiseError_sourceMem (c : ErrCode) (s : State) : (raiseError c s).sourceMem = s.sourceMem := by
  rw [raiseError_frame]

@[simp] theorem raiseError_delivered (c : ErrCode) (s : State) : (raiseError c s).delivered = s.delivered := by
  rw [raiseError_frame]

@[simp] theorem raiseError_tileIndex (c : ErrCode) (s : State) : (raiseError c s).tileIndex = s.tileIndex := by
  rw [raiseError_frame]

/-- START's validation keeps every field but the error entry's and the geometry (R102, R107). -/
theorem startValidate_frame (s : State) :
    startValidate s =
      { s with state := (startValidate s).state, errCode := (startValidate s).errCode,
               port := (startValidate s).port, hidden := (startValidate s).hidden,
               tilesX := (startValidate s).tilesX, tilesY := (startValidate s).tilesY,
               tileCount := (startValidate s).tileCount } := by
  have fail_frame (c : ErrCode) := raiseError_frame c { s with tilesX := 0, tilesY := 0, tileCount := 0 }
  obtain ⟨-, h⟩ | ⟨-, -, h⟩ | ⟨-, -, -, h⟩ | ⟨-, -, -, h⟩ := startValidate_cases s <;> rw [h]
  · rw [startFail, fail_frame]
  · rw [startFail, fail_frame]
  · rw [startFail, fail_frame]
  · rfl

@[simp] theorem startValidate_sourceMem (s : State) : (startValidate s).sourceMem = s.sourceMem := by
  rw [startValidate_frame]

@[simp] theorem startValidate_delivered (s : State) : (startValidate s).delivered = s.delivered := by
  rw [startValidate_frame]

@[simp] theorem startValidate_tileIndex (s : State) : (startValidate s).tileIndex = s.tileIndex := by
  rw [startValidate_frame]

/-! ### Source memory: every operation of the block keeps it -/

theorem Effect.sourceMem {i : Instr} {s u : State} (e : Effect s i u) : u.sourceMem = s.sourceMem := by
  cases e with
  | start _ => simp
  | illegal w => exact raiseError_sourceMem .illegalCommand s
  | _ => rfl

/-- No instruction writes source memory (R63). -/
theorem exec_sourceMem {i : Instr} {s t : State} (h : exec i s = .next t) : t.sourceMem = s.sourceMem := by
  obtain ⟨r, u, j, hnext, e⟩ := exec_any_effect i s
  cases hnext.symm.trans h
  exact e.sourceMem

/-- The engine reads source memory and never writes it (R63). -/
theorem engineStep_sourceMem {s t : State} (h : engineStep s = .next t) : t.sourceMem = s.sourceMem := by
  obtain ⟨-, rfl⟩ | ⟨-, -, -, -, ⟨bs, -, rfl⟩ | ⟨-, rfl⟩⟩ := engineStep_cases h
  · rfl
  · exact engineLoad_sourceMem bs s
  · exact raiseError_sourceMem .sourceReadError s

@[simp] theorem readAhead_sourceMem (a : Word) (s : State) : (readAhead a s).sourceMem = s.sourceMem := by
  obtain h | ⟨b, -, -, -, -, h⟩ := readAhead_cases a s <;> rw [h]

@[simp] theorem consumerStep_sourceMem (l : Bool) (s : State) : (consumerStep l s).sourceMem = s.sourceMem := by
  obtain ⟨h, -⟩ | ⟨t, -, -, h⟩ := consumerStep_cases l s
  · rw [h]
  · rw [h, takeTile_sourceMem]

/-- Reset does not touch source memory (R241). -/
@[simp] theorem setResetPin_sourceMem (l : Bool) (s : State) : (setResetPin l s).sourceMem = s.sourceMem := by
  obtain h | ⟨-, -, h⟩ := setResetPin_cases l s <;> simp [h]

/-- Every event but another agent's write keeps source memory (R63). -/
theorem EventMove.sourceMem {e : Event} {s t : State} (m : EventMove s e t) (he : ∀ a b, e ≠ .poke a b) :
    t.sourceMem = s.sourceMem := by
  cases m with
  | still _ => rfl
  | host w _ _ h => exact exec_sourceMem h
  | hostBus _ _ _ _ _ _ _ _ h => exact exec_sourceMem h
  | engine _ _ h => exact engineStep_sourceMem h
  | readAhead a _ => exact readAhead_sourceMem a s
  | consumer l _ => exact consumerStep_sourceMem l s
  | poke a b => exact absurd rfl (he a b)
  | memoryAnswers l => exact setMemAnswers_sourceMem l s
  | resetPin l => exact setResetPin_sourceMem l s

/-- With no event left only the engine moves, and it keeps source memory. -/
theorem idleStep_sourceMem {s t : State} (h : idleStep s = .next t) : t.sourceMem = s.sourceMem := by
  unfold idleStep at h
  split at h
  · cases h
    rfl
  · exact engineStep_sourceMem h

/-- A step that is no other agent's write keeps source memory (R63). -/
theorem step_sourceMem {s t : State} (h : step s = .next t) (hno : ∀ a b rest, s.schedule ≠ .poke a b :: rest) :
    t.sourceMem = s.sourceMem := by
  cases he : s.schedule with
  | nil => exact idleStep_sourceMem (step_nil he ▸ h)
  | cons e rest => exact (step_event_cases h he).sourceMem fun a b hpoke => hno a b rest (hpoke ▸ he)

/-- Settles O29: the memory itself is kept, so every byte of it is. -/
theorem onlyOtherAgentsWriteSourceMemory : Obligations.OnlyOtherAgentsWriteSourceMemory :=
  fun _ _ h hno a => congrArg (Memory.read · a) (step_sourceMem h hno)

/-! ### The tiles taken: kept, with TILE_INDEX kept or back at 0, or one more at a transfer -/

/-- From `s` to `t` no tile is taken, and TILE_INDEX is kept or back at 0. -/
def TakesNoTile (s t : State) : Prop :=
  t.delivered = s.delivered ∧ (t.tileIndex = s.tileIndex ∨ t.tileIndex = 0)

theorem Effect.takesNoTile {i : Instr} {s u : State} (e : Effect s i u) : TakesNoTile s u := by
  cases e with
  | start _ => exact ⟨by simp, .inr (by simp)⟩
  | abort => exact ⟨rfl, .inr rfl⟩
  | clearError _ => exact ⟨rfl, .inr rfl⟩
  | illegal w => exact ⟨raiseError_delivered .illegalCommand s, .inl (raiseError_tileIndex .illegalCommand s)⟩
  | _ => exact ⟨rfl, .inl rfl⟩

theorem exec_takesNoTile {i : Instr} {s t : State} (h : exec i s = .next t) : TakesNoTile s t := by
  obtain ⟨r, u, j, hnext, e⟩ := exec_any_effect i s
  cases hnext.symm.trans h
  exact e.takesNoTile

theorem engineStep_takesNoTile {s t : State} (h : engineStep s = .next t) : TakesNoTile s t := by
  obtain ⟨-, rfl⟩ | ⟨-, -, -, -, ⟨bs, -, rfl⟩ | ⟨-, rfl⟩⟩ := engineStep_cases h
  · exact ⟨rfl, .inl rfl⟩
  · exact ⟨engineLoad_delivered bs s, .inl (engineLoad_tileIndex bs s)⟩
  · exact ⟨raiseError_delivered .sourceReadError s, .inl (raiseError_tileIndex .sourceReadError s)⟩

theorem readAhead_takesNoTile (a : Word) (s : State) : TakesNoTile s (readAhead a s) := by
  obtain h | ⟨b, -, -, -, -, h⟩ := readAhead_cases a s <;> rw [h] <;> exact ⟨rfl, .inl rfl⟩

theorem setResetPin_takesNoTile (l : Bool) (s : State) : TakesNoTile s (setResetPin l s) := by
  obtain h | ⟨-, -, h⟩ := setResetPin_cases l s <;> rw [h]
  · exact ⟨rfl, .inr rfl⟩
  · exact ⟨rfl, .inl rfl⟩

/-- A move takes no tile, or it is the transfer of the presented tile (R159). -/
theorem Move.takesNoTile_or_takeTile {s t : State} (m : Move s t) :
    TakesNoTile s t ∨ ∃ tile, s.port = some tile ∧ t = takeTile tile s := by
  cases m with
  | still => exact .inl ⟨rfl, .inl rfl⟩
  | instr i _ _ h => exact .inl (exec_takesNoTile h)
  | engine _ _ h => exact .inl (engineStep_takesNoTile h)
  | readAhead a _ => exact .inl (readAhead_takesNoTile a s)
  | consumer l _ =>
    obtain ⟨h, -⟩ | ⟨tile, hport, -, h⟩ := consumerStep_cases l s
    · exact .inl ⟨congrArg State.delivered h, .inl (congrArg State.tileIndex h)⟩
    · exact .inr ⟨tile, hport, h⟩
  | poke a b => exact .inl ⟨pokeByte_delivered a b s, .inl (pokeByte_tileIndex a b s)⟩
  | memAnswers l => exact .inl ⟨rfl, .inl rfl⟩
  | resetPin l => exact .inl (setResetPin_takesNoTile l s)

/-! ### Delivery order -/

/-- The order speaks of the first TILE_INDEX tiles taken: none, where it is 0 again. -/
theorem TakesNoTile.deliveredInOrder {s t : State} (h : TakesNoTile s t) (ho : DeliveredInOrder s) :
    DeliveredInOrder t := by
  obtain ⟨hdelivered, hindex | hindex⟩ := h
  · rwa [DeliveredInOrder, hdelivered, hindex]
  · simp [DeliveredInOrder, hindex]

/-- Taking the tile with index TILE_INDEX puts it after those with the indices below, where TILE_INDEX does not wrap. -/
theorem takeTile_deliveredInOrder {s : State} {tile : Tile} (hindex : tile.index = s.tileIndex)
    (hnext : (s.tileIndex + 1).toNat = s.tileIndex.toNat + 1) (ho : DeliveredInOrder s) :
    DeliveredInOrder (takeTile tile s) := by
  unfold DeliveredInOrder at ho ⊢
  rw [takeTile_tileIndex, takeTile_delivered, hnext, List.take_succ_cons, List.map_cons, ho, hindex, List.range_succ,
    List.reverse_concat]

/-- TILE_INDEX does not wrap while a tile is presented: tiles remain then (R25, R35). -/
theorem BlockInv.tileIndex_succ {s : State} {tile : Tile} (hinv : BlockInv s) (hport : s.port = some tile) :
    (s.tileIndex + 1).toNat = s.tileIndex.toNat + 1 := by
  have hrun : s.state = .run := hinv.presented_in_run (by simp [hport])
  have hremaining := hinv.run_remaining hrun
  bv_omega

/-- Settles O56: a step takes no tile, or the presented one, whose index is TILE_INDEX (R86, R158). -/
theorem stepKeepsDeliveryOrder : Obligations.StepKeepsDeliveryOrder := by
  intro s t hinv ho h
  obtain hno | ⟨tile, hport, rfl⟩ := (step_move h).takesNoTile_or_takeTile
  · exact hno.deliveredInOrder ho
  · obtain ⟨hindex, -⟩ := hinv.presented_is_next tile hport
    exact takeTile_deliveredInOrder hindex (hinv.tileIndex_succ hport) ho

end Sys2Proof.Machine
end

