-- ==== Sys2Proof/Proofs/Commands.lean ====
section
/-! PROOF. The commands (spec/40_commands.md): the CMD words that select them, and the whole next state of each (R101 to R110).
START is its four outcomes, each under the arithmetic condition that its checks decide. -/

namespace Sys2Proof.Machine

open Claims

/-! ### START's checks, as conditions on the configuration registers -/

theorem dimensionsOk_iff {s : State} :
    dimensionsOk s = true ↔ s.width.toNat % 8 = 0 ∧ s.height.toNat % 8 = 0 := by
  simp [dimensionsOk, Config.block]

theorem formatOk_iff {s : State} : formatOk s = true ↔ s.fmt = 0 ∨ s.fmt = 1 := by
  simp [formatOk]

/-- The raster is empty, or ends at 2^32 or below (R106). -/
theorem rangeOk_iff {s : State} :
    rangeOk s = true ↔ rasterBytes s = 0 ∨ s.srcBase.toNat + rasterBytes s ≤ 2 ^ 32 := by
  simp [rangeOk, Config.addrSpace]

/-- The bytes of a pixel in the two legal formats (R85). -/
theorem channels_of_legal {fmt : BitVec 2} {c : Nat} (h : (fmt = 0 ∧ c = 1) ∨ (fmt = 1 ∧ c = 3)) :
    channels fmt = c := by
  obtain ⟨rfl, rfl⟩ | ⟨rfl, rfl⟩ := h <;> rfl

/-! ### START's outcomes, in full -/

/-- The model clears `src_race` before it validates (log entry 14). -/
theorem startFail_startFresh (c : ErrCode) (s : State) : startFail c (startFresh s) = failedStart c false s :=
  startFail_eq (by simp)

theorem startRun_startFresh (s : State) :
    startRun (startFresh s) = startedRun (s.width.toNat / 8) (s.height.toNat / 8) s := by
  simp [startRun, startedRun, startFresh, withdrawTile, discardHidden, Config.block, Bool.cond_eq_ite]

/-- START's four outcomes, under the checks of the registers before it (R205). -/
theorem startValidate_startFresh (s : State) :
    startValidate (startFresh s) =
      if dimensionsOk s = false then failedStart .invalidCarrierDimensions false s
      else if formatOk s = false then failedStart .invalidFormat false s
      else if rangeOk s = false then failedStart .addressRange false s
      else startedRun (s.width.toNat / 8) (s.height.toNat / 8) s := by
  have hd : dimensionsOk (startFresh s) = dimensionsOk s := rfl
  have hf : formatOk (startFresh s) = formatOk s := rfl
  have hr : rangeOk (startFresh s) = rangeOk s := rfl
  simp only [startValidate, hd, hf, hr, startFail_startFresh, startRun_startFresh, Bool.not_eq_true']

/-- Outside RUN START leaves what its validation makes of the fresh state (R102). -/
theorem start_answers {s t : State} (hs : s.state ≠ .run) (h : startValidate (startFresh s) = t) :
    Answers .start s .okayWrite t :=
  h ▸ execStart_outside_run hs

/-- Settles O20: each clause's condition on the registers is the outcome of START's checks that leads to its state. -/
theorem startFollowsItsChecks : Obligations.StartFollowsItsChecks := by
  refine ⟨rfl, fun s hs => ⟨fun hbad => ?_, fun hw hh => ?_⟩⟩
  · have hd : dimensionsOk s = false := by
      rw [← Bool.not_eq_true, dimensionsOk_iff]
      omega
    exact ⟨false, start_answers hs (by simp [startValidate_startFresh, hd])⟩
  · have hd : dimensionsOk s = true := dimensionsOk_iff.mpr ⟨hw, hh⟩
    refine ⟨fun hnotGray hnotRgb => ?_, fun c hc => ?_⟩
    · have hf : formatOk s = false := by
        rw [← Bool.not_eq_true, formatOk_iff]
        exact not_or.mpr ⟨hnotGray, hnotRgb⟩
      exact ⟨false, start_answers hs (by simp [startValidate_startFresh, hd, hf])⟩
    · have hf : formatOk s = true := formatOk_iff.mpr (hc.imp And.left And.left)
      rw [← channels_of_legal hc]
      refine ⟨fun ⟨hpos, hend⟩ => ?_, fun hfits => ?_⟩
      · have hr : rangeOk s = false := by
          rw [← Bool.not_eq_true, rangeOk_iff, rasterBytes]
          omega
        exact ⟨false, start_answers hs (by simp [startValidate_startFresh, hd, hf, hr])⟩
      · have hr : rangeOk s = true := rangeOk_iff.mpr hfits
        exact start_answers hs (by simp [startValidate_startFresh, hd, hf, hr])

/-- Settles O19: in RUN, START is the setting of IGN (R26). -/
theorem startInRunIsDiscarded : Obligations.StartInRunIsDiscarded :=
  fun _ hrun => execStart_in_run hrun

/-! ### NOP, ABORT, CLEAR_ERR and illegal commands -/

/-- Settles O18: the response is all that NOP writes. -/
theorem nopChangesNothing : Obligations.NopChangesNothing :=
  ⟨rfl, exec_nop⟩

/-- Settles O22: the assignments of ABORT, in full. -/
theorem abortReturnsToIdle : Obligations.AbortReturnsToIdle :=
  ⟨rfl, exec_abort⟩

/-- Settles O23: CLEAR_ERR's two cases by STATE. -/
theorem clearErrAcknowledges : Obligations.ClearErrAcknowledges := by
  refine ⟨rfl, fun s => ⟨fun houtside => ?_, fun herror => ?_⟩⟩
  · rw [Answers, exec_clearErr, if_neg houtside]
    rfl
  · rw [Answers, exec_clearErr, if_pos herror]
    rfl

/-- A CMD word above 3 selects no command (R83). -/
theorem decodeWord_cmd_illegal {w : Word} (h : 3 < w.toNat) : decodeWord (.cmd w) = .illegalCmd w := by
  obtain ⟨rfl, -⟩ | ⟨rfl, -⟩ | ⟨rfl, -⟩ | ⟨rfl, -⟩ | ⟨-, hw⟩ := decodeCommand_cases w
  case inr.inr.inr.inr => rw [decodeWord, decodeCmd, hw]
  all_goals exact absurd h (by decide)

/-- Settles O24: an illegal command is the error entry, in its two cases by STATE (R202). -/
theorem illegalCommandEntersError : Obligations.IllegalCommandEntersError := by
  refine ⟨fun w hw => decodeWord_cmd_illegal hw, fun w s => ⟨fun houtside => ?_, fun herror => ?_⟩⟩
  · rw [Answers, exec_illegalCmd, raiseError_outside_error houtside]
    rfl
  · rw [Answers, exec_illegalCmd, raiseError_in_error herror]
    rfl

end Sys2Proof.Machine
end

