-- ==== Sys2Proof/Proofs/RegisterAccess.lean ====
section
/-! PROOF. The accesses to the register window (spec/41_register_access.md): the row that a descriptor selects (R81, R89), and
what each access answers and leaves unchanged (R121 to R147). -/

namespace Sys2Proof

/-! ### The row that a descriptor selects -/

/-- An offset's low two bits, together and one by one. -/
theorem offset_lowBits_eq_zero_iff {o : Offset} :
    o.extractLsb' 0 2 = 0 ↔ o.getLsbD 0 = false ∧ o.getLsbD 1 = false := by
  refine ⟨fun h => ?_, fun ⟨h0, h1⟩ => ?_⟩
  · have hbit (i : Nat) := congrArg (·.getLsbD i) h
    exact ⟨by simpa using hbit 0, by simpa using hbit 1⟩
  · apply BitVec.eq_of_getLsbD_eq
    intro i hi
    obtain rfl | rfl : i = 0 ∨ i = 1 := by omega
    · simpa using h0
    · simpa using h1

/-- An aligned offset is a multiple of 4 (R67). -/
theorem offset_lowBits_eq_zero_of_mod {o : Offset} (h : o.toNat % 4 = 0) : o.extractLsb' 0 2 = 0 := by
  apply BitVec.eq_of_toNat_eq
  simpa [BitVec.extractLsb'_toNat] using h

/-- A 4-byte access at an aligned offset is the row of the register map (R89). -/
theorem decodeBus_legal {x : Descriptor} (d : Word) (hsize : descSize x = 2)
    (haligned : (descOffset x).extractLsb' 0 2 = 0) :
    decodeBus x d = if descWe x then decodeWrite (descOffset x) d else decodeRead (descOffset x) := by
  obtain ⟨h0, h1⟩ := offset_lowBits_eq_zero_iff.mp haligned
  have hnot3 : (2 : Size) ≠ 3 := by decide
  rw [decodeBus, hsize, if_neg hnot3, if_neg (not_not.mpr rfl), h0, if_neg Bool.false_ne_true, h1,
    if_neg Bool.false_ne_true]

/-- The read of an aligned offset (R81, R89). -/
theorem decodeBus_read {o : Offset} (d : Word) (haligned : o.extractLsb' 0 2 = 0) :
    decodeBus (descriptor false 2 o) d = decodeRead o := by
  rw [decodeBus_legal d (descSize_descriptor ..) (by rwa [descOffset_descriptor]), descWe_descriptor,
    descOffset_descriptor, if_neg Bool.false_ne_true]

/-- The write of an aligned offset (R81, R89). -/
theorem decodeBus_write {o : Offset} (d : Word) (haligned : o.extractLsb' 0 2 = 0) :
    decodeBus (descriptor true 2 o) d = decodeWrite o d := by
  rw [decodeBus_legal d (descSize_descriptor ..) (by rwa [descOffset_descriptor]), descWe_descriptor,
    descOffset_descriptor, if_pos rfl]

/-- From 0x030 on no named register is read (R70). -/
theorem decodeRead_reserved {o : Offset} (h : 0x030 ≤ o.toNat) : decodeRead o = .rdReserved o := by
  have hne (k : Offset) (hk : k.toNat < 0x030) : o ≠ k := fun he => by rw [he] at h; omega
  simp [decodeRead, hne]

/-- From 0x030 on no named register is written (R70). -/
theorem decodeWrite_reserved {o : Offset} (d : Word) (h : 0x030 ≤ o.toNat) : decodeWrite o d = .wrReserved o d := by
  have hne (k : Offset) (hk : k.toNat < 0x030) : o ≠ k := fun he => by rw [he] at h; omega
  simp [decodeWrite, hne]

/-- The offset takes the low bits of a descriptor, beside WE and SIZE (R81, R90). -/
theorem descriptor_eq_or (we : Bool) (size : Size) (o : Offset) :
    descriptor we size o = descriptor we size 0 ||| o.setWidth 15 := by
  apply BitVec.eq_of_getLsbD_eq
  intro i hi
  rw [BitVec.getLsbD_or, BitVec.getLsbD_setWidth, descriptor_getLsbD, descriptor_getLsbD]
  by_cases hlow : i < 12
  · simp [hlow, hi]
  · simp [hlow, BitVec.getLsbD_of_ge o i (by omega)]

end Sys2Proof

namespace Sys2Proof.Machine

open Claims

theorem readRow_reserved {o : Offset} (hlow : 0x030 ≤ o.toNat) (haligned : o.toNat % 4 = 0) :
    ReadRow (0x2000 ||| o.setWidth 15) (.rdReserved o) := fun d => by
  rw [show (0x2000 : Descriptor) = descriptor false 2 0 from rfl, ← descriptor_eq_or, decodeWord,
    decodeBus_read d (offset_lowBits_eq_zero_of_mod haligned), decodeRead_reserved hlow]

theorem writeRow_reserved {o : Offset} (hlow : 0x030 ≤ o.toNat) (haligned : o.toNat % 4 = 0) :
    WriteRow (0x6000 ||| o.setWidth 15) (.wrReserved o) := fun d => by
  rw [show (0x6000 : Descriptor) = descriptor true 2 0 from rfl, ← descriptor_eq_or, decodeWord,
    decodeBus_write d (offset_lowBits_eq_zero_of_mod haligned), decodeWrite_reserved d hlow]

/-! ### Illegal accesses (R121) -/

/-- An illegal descriptor falls into one of the four rows that answer BUSERR (R89, R121). -/
theorem exec_illegal_descriptor {x : Descriptor} (d : Word) (s : State)
    (h : descSize x ≠ 2 ∨ (descOffset x).extractLsb' 0 2 ≠ 0) :
    exec (decodeBus x d) s = .next (respond .busErr s) := by
  unfold decodeBus
  split
  · exact exec_busErrSize3 ..
  split
  · exact exec_busErrSize ..
  split
  · exact exec_busErrAlign1 ..
  split
  · exact exec_busErrAlign2 ..
  next hsize h0 h1 =>
    have haligned : (descOffset x).extractLsb' 0 2 = 0 :=
      offset_lowBits_eq_zero_iff.mpr ⟨Bool.not_eq_true _ ▸ h0, Bool.not_eq_true _ ▸ h1⟩
    exact absurd h (not_or.mpr ⟨hsize, not_not.mpr haligned⟩)

/-- Settles O7: every illegal descriptor is one of the four rows, and each of them is one response. -/
theorem illegalAccessAnswersBusErr : Obligations.IllegalAccessAnswersBusErr :=
  ⟨fun _ d s h => exec_illegal_descriptor d s h, exec_busErrSize, exec_busErrSize3, exec_busErrAlign1,
    exec_busErrAlign2⟩

/-! ### Reads (R122 to R141, R146) -/

theorem RunState.code_toNat (r : RunState) : r.code.toNat = stateNumber r := by
  cases r <;> rfl

theorem ErrCode.code_toNat (c : ErrCode) : c.code.toNat = errorNumber c := by
  cases c <;> rfl

/-- STATUS bit by bit (R126). -/
theorem statusWord_getLsbD (s : State) (i : Nat) :
    (statusWord s).getLsbD i =
      if i < 2 then s.state.code.getLsbD i
      else if i = 2 then s.tValid
      else if i = 3 then s.ign
      else s.errCode.code.getLsbD (i - 4) := by
  rw [statusWord, BitVec.getLsbD_setWidth, BitVec.getLsbD_append, BitVec.getLsbD_append, BitVec.getLsbD_append,
    BitVec.getLsbD_ofBool, BitVec.getLsbD_ofBool]
  obtain hstate | rfl | rfl | hcode : i < 2 ∨ i = 2 ∨ i = 3 ∨ 4 ≤ i := by omega
  · have hword : i < 32 := by omega
    simp [hstate, hword]
  · simp
  · simp
  · obtain ⟨j, rfl⟩ := Nat.exists_eq_add_of_le' hcode
    have hword (h : s.errCode.code.getLsbD j = true) : j + 4 < 32 := by
      have := BitVec.lt_of_getLsbD h
      omega
    simpa using hword

/-- STATUS.STATE (R25). -/
theorem statusWord_state (s : State) : (statusWord s).extractLsb' 0 2 = s.state.code := by
  apply BitVec.eq_of_getLsbD_eq
  intro i hi
  rw [BitVec.getLsbD_extractLsb', statusWord_getLsbD]
  simp [hi]

/-- STATUS.ERR_CODE (R27). -/
theorem statusWord_errCode (s : State) : (statusWord s).extractLsb' 4 4 = s.errCode.code := by
  apply BitVec.eq_of_getLsbD_eq
  intro i hi
  rw [BitVec.getLsbD_extractLsb', statusWord_getLsbD, if_neg (by omega), if_neg (by omega), if_neg (by omega)]
  simp [hi]

/-- The reserved bits of STATUS. -/
theorem statusWord_reserved (s : State) : (statusWord s).extractLsb' 8 24 = 0 := by
  apply BitVec.eq_of_getLsbD_eq
  intro i hi
  rw [BitVec.getLsbD_extractLsb', statusWord_getLsbD, if_neg (by omega), if_neg (by omega), if_neg (by omega),
    BitVec.getLsbD_of_ge _ _ (by omega)]
  simp

/-- Settles O8: each field of the STATUS word, bit by bit. -/
theorem statusReadLayout : Obligations.StatusReadLayout := by
  refine ⟨fun _ => rfl, fun s => ⟨statusWord s, exec_rdStatus s, ?_, ?_, ?_, ?_, statusWord_reserved s⟩⟩
  · rw [statusWord_state, RunState.code_toNat]
  · rw [statusWord_getLsbD]
    simp [State.tValid, Option.isSome_iff_ne_none]
  · exact statusWord_getLsbD s 3
  · rw [statusWord_errCode, ErrCode.code_toNat]

/-- INT_EN as it is read, bit by bit (R128). -/
theorem intEnWord_getLsbD (s : State) (i : Nat) :
    (intEnWord s).getLsbD i = if i = 0 then s.doneIe else if i = 1 then s.errIe else false := by
  rw [intEnWord, BitVec.getLsbD_setWidth, BitVec.getLsbD_append, BitVec.getLsbD_ofBool, BitVec.getLsbD_ofBool]
  obtain rfl | rfl | hreserved : i = 0 ∨ i = 1 ∨ 2 ≤ i := by omega
  · simp
  · simp
  · obtain ⟨j, rfl⟩ := Nat.exists_eq_add_of_le' hreserved
    simp

/-- The reserved bits of INT_EN. -/
theorem intEnWord_reserved (s : State) : (intEnWord s).extractLsb' 2 30 = 0 := by
  apply BitVec.eq_of_getLsbD_eq
  intro i hi
  rw [BitVec.getLsbD_extractLsb', intEnWord_getLsbD, if_neg (by omega), if_neg (by omega)]
  simp

/-- Settles O9: a field narrower than the word is read with zeros above it (R84). -/
theorem configurationReads : Obligations.ConfigurationReads := by
  refine ⟨⟨fun _ => rfl, fun _ => rfl, fun _ => rfl, fun _ => rfl, fun _ => rfl⟩, fun s => ⟨?_, ?_, ?_, ?_, ?_⟩⟩
  · exact ⟨_, exec_rdIntEn s, intEnWord_getLsbD s 0, intEnWord_getLsbD s 1, intEnWord_reserved s⟩
  · exact ⟨_, exec_rdWidth s, BitVec.toNat_setWidth_of_le (by decide)⟩
  · exact ⟨_, exec_rdHeight s, BitVec.toNat_setWidth_of_le (by decide)⟩
  · exact ⟨_, exec_rdFormat s, BitVec.toNat_setWidth_of_le (by decide)⟩
  · exact ⟨_, exec_rdSrcBase s, rfl⟩

/-- Settles O10: each of the four registers is 32 bits wide, so RDATA is the register. -/
theorem geometryAndProgressReads : Obligations.GeometryAndProgressReads :=
  ⟨⟨fun _ => rfl, fun _ => rfl, fun _ => rfl, fun _ => rfl⟩,
    fun s => ⟨exec_rdTilesX s, exec_rdTilesY s, exec_rdTileCount s, exec_rdTileIndex s⟩⟩

/-- Settles O11: no constant read looks at the state. -/
theorem constantReads : Obligations.ConstantReads :=
  ⟨⟨fun _ => rfl, fun _ => rfl, fun _ => readRow_reserved⟩,
    fun s => ⟨exec_rdId s, exec_rdCmd s, fun o => exec_rdReserved o s⟩⟩

/-! ### Writes (R123 to R137, R142 to R147) -/

/-- Settles O13: the response is all that these seven rows write. -/
theorem readOnlyWritesChangeNothing : Obligations.ReadOnlyWritesChangeNothing :=
  ⟨⟨fun _ => rfl, fun _ => rfl, fun _ => rfl, fun _ => rfl, fun _ => rfl, fun _ => rfl, fun _ => writeRow_reserved⟩,
    fun d s => ⟨exec_wrId d s, exec_wrStatus d s, exec_wrTilesX d s, exec_wrTilesY d s, exec_wrTileCount d s,
      exec_wrTileIndex d s, fun o => exec_wrReserved o d s⟩⟩

/-- Settles O14: the four writes are one operation with a field each (R26). -/
theorem configurationWrites : Obligations.ConfigurationWrites := by
  refine ⟨⟨fun _ => rfl, fun _ => rfl, fun _ => rfl, fun _ => rfl⟩, fun d s => ⟨fun houtside => ?_, fun hrun => ?_⟩⟩
  · exact ⟨(exec_wrWidth d s).trans (writeConfig_outside_run houtside),
      (exec_wrHeight d s).trans (writeConfig_outside_run houtside),
      (exec_wrFormat d s).trans (writeConfig_outside_run houtside),
      (exec_wrSrcBase d s).trans (writeConfig_outside_run houtside)⟩
  · exact ⟨(exec_wrWidth d s).trans (writeConfig_in_run hrun), (exec_wrHeight d s).trans (writeConfig_in_run hrun),
      (exec_wrFormat d s).trans (writeConfig_in_run hrun), (exec_wrSrcBase d s).trans (writeConfig_in_run hrun)⟩

theorem intEnField_getLsbD_zero (d : Word) : (intEnField d).getLsbD 0 = d.getLsbD 0 := by
  rw [intEnField, BitVec.getLsbD_append, BitVec.getLsbD_ofBool, BitVec.getLsbD_ofBool]
  simp

theorem intEnField_getLsbD_one (d : Word) : (intEnField d).getLsbD 1 = d.getLsbD 1 := by
  rw [intEnField, BitVec.getLsbD_append, BitVec.getLsbD_ofBool, BitVec.getLsbD_ofBool]
  simp

/-- Settles O15: `irq` is a level of STATE and the enables, so it follows the enables just stored (R39). -/
theorem intEnWriteDrivesIrq : Obligations.IntEnWriteDrivesIrq := by
  refine ⟨fun _ => rfl, fun d s => ⟨intEnField d, exec_wrIntEn d s, intEnField_getLsbD_zero d,
    intEnField_getLsbD_one d, ?_⟩⟩
  rw [irq_iff, intEnField_getLsbD_zero, intEnField_getLsbD_one]

/-- Every command completes with OKAY, legal or not (R100). -/
theorem runCommand_answers_okay (c : Command) (s : State) :
    ∃ u, runCommand c s = .next (respond .okayWrite u) := by
  cases c with
  | nop => exact ⟨_, rfl⟩
  | start => exact ⟨_, rfl⟩
  | abort => exact ⟨_, rfl⟩
  | clearErr => exact ⟨_, rfl⟩
  | illegal w => exact ⟨_, rfl⟩

/-- Settles O17: WR_CMD runs the command its DATA selects, and every command answers OKAY. -/
theorem cmdWritePerformsItsCommand : Obligations.CmdWritePerformsItsCommand := by
  refine ⟨fun _ => rfl, fun d s => ⟨exec_wrCmd d s, ?_⟩⟩
  obtain ⟨u, h⟩ := runCommand_answers_okay (decodeCommand d) s
  exact ⟨_, h, respond_response .okayWrite u⟩

end Sys2Proof.Machine
end

