-- ==== Sys2Proof/Proofs/TileDatapath.lean ====
section
/-! PROOF. The tile datapath (spec/42_tile_datapath.md): luma as a rounding (R153, R154), the tiles of the raster (R150
to R152), and the steps over the output port: ENGINE_LOAD, ENGINE_FAULT and TAKE (R158 to R160). -/

namespace Sys2Proof.Machine

open Claims

/-! ### Luma -/

/-- luma before rounding, in thousandths (R153). -/
def lumaSum (r g b : Nat) : Nat := 299 * r + 587 * g + 114 * b

/-- With either tie rule luma is within half of the exact value, so off a tie it is the one nearest integer (R153). -/
theorem lumaNat_within_half (tie : LumaTie) (r g b : Nat) :
    1000 * lumaNat tie r g b ≤ lumaSum r g b + 500 ∧ lumaSum r g b ≤ 1000 * lumaNat tie r g b + 500 := by
  simp only [lumaNat, lumaSum]
  split
  · omega
  · split
    · omega
    · cases tie <;> dsimp only <;> omega

/-- HALF_UP is one integer division (R153). -/
theorem lumaNat_halfUp (r g b : Nat) : lumaNat .halfUp r g b = (lumaSum r g b + 500) / 1000 := by
  simp only [lumaNat, lumaSum]
  split
  · omega
  · split <;> omega

/-- HALF_EVEN rounds a tie to an even integer (R153). -/
theorem lumaNat_halfEven_even_at_tie {r g b : Nat} (h : lumaSum r g b % 1000 = 500) :
    lumaNat .halfEven r g b % 2 = 0 := by
  simp only [lumaNat, lumaSum] at h ⊢
  rw [if_neg (by omega), if_neg (by omega)]
  omega

/-- The weights add up to 1000, so the luma of bytes is a byte, and narrowing it to 8 bits loses nothing. -/
theorem luma_toNat (tie : LumaTie) (r g b : Byte) : (luma tie r g b).toNat = lumaNat tie r.toNat g.toNat b.toNat := by
  have hsum : lumaSum r.toNat g.toNat b.toNat ≤ 255000 := by
    unfold lumaSum
    omega
  obtain ⟨hupper, -⟩ := lumaNat_within_half tie r.toNat g.toNat b.toNat
  rw [luma, BitVec.toNat_ofNat, Nat.mod_eq_of_lt (by omega)]

/-- Settles O36: at a tie `lumaNat_within_half` leaves the two integers at distance 500, and LUMA_TIE says which. -/
theorem lumaRoundsToNearest : Obligations.LumaRoundsToNearest := by
  intro tie r g b
  have hup := lumaNat_halfUp r.toNat g.toNat b.toNat
  have hhalf := lumaNat_within_half tie r.toNat g.toNat b.toNat
  refine ⟨lumaSum r.toNat g.toNat b.toNat, lumaNat tie r.toNat g.toNat b.toNat, rfl, (luma_toNat tie r g b).symm, ?_,
    fun _ => by omega, fun htie => ⟨?_, ?_⟩⟩
  · rintro rfl
    exact hup
  · rintro rfl
    omega
  · rintro rfl
    have heven := lumaNat_halfEven_even_at_tie htie
    exact ⟨heven, by omega⟩

/-- The lower end of luma's range is no tie (R154). -/
theorem lumaSum_ne_500 (r g b : Nat) : lumaSum r g b ≠ 500 := by
  unfold lumaSum
  obtain hr | rfl | rfl : 2 ≤ r ∨ r = 1 ∨ r = 0 := by omega
  · omega
  · omega
  · omega

/-- The upper end of luma's range is no tie: it is the lower end for the complements to 255 (R154). -/
theorem lumaSum_ne_254500 (r g b : Byte) : lumaSum r.toNat g.toNat b.toNat ≠ 254500 := by
  have hcomplement := lumaSum_ne_500 (255 - r.toNat) (255 - g.toNat) (255 - b.toNat)
  unfold lumaSum at hcomplement ⊢
  omega

/-- luma is 0 exactly below 500 (R154). -/
theorem lumaNat_eq_zero_iff (tie : LumaTie) (r g b : Nat) : lumaNat tie r g b = 0 ↔ lumaSum r g b < 500 := by
  have hhalf := lumaNat_within_half tie r g b
  have hend := lumaSum_ne_500 r g b
  omega

/-- luma is 255 exactly from 254500 on (R154). -/
theorem lumaNat_eq_255_iff (tie : LumaTie) (r g b : Byte) :
    lumaNat tie r.toNat g.toNat b.toNat = 255 ↔ 254500 ≤ lumaSum r.toNat g.toNat b.toNat := by
  have hhalf := lumaNat_within_half tie r.toNat g.toNat b.toNat
  have hend := lumaSum_ne_254500 r g b
  have hbyte : lumaNat tie r.toNat g.toNat b.toNat < 256 := luma_toNat tie r g b ▸ (luma tie r g b).isLt
  omega

/-- A gray pixel's sum is 1000 times its value, so luma keeps it (R154). -/
theorem luma_gray (tie : LumaTie) (v : Byte) : luma tie v v v = v := by
  have hsum : lumaSum v.toNat v.toNat v.toNat = 1000 * v.toNat := by
    unfold lumaSum
    omega
  have hhalf := lumaNat_within_half tie v.toNat v.toNat v.toNat
  apply BitVec.eq_of_toNat_eq
  rw [luma_toNat]
  omega

/-- Settles O37: neither end of the range is a tie, so LUMA_TIE has no say there. -/
theorem lumaRangeAndGrayFixedPoints : Obligations.LumaRangeAndGrayFixedPoints := by
  intro tie r g b
  have hvalue (v : Byte) : luma tie r g b = v ↔ lumaNat tie r.toNat g.toNat b.toNat = v.toNat := by
    rw [← BitVec.toNat_inj, luma_toNat]
  exact ⟨(hvalue 0).trans (lumaNat_eq_zero_iff tie _ _ _), (hvalue 255).trans (lumaNat_eq_255_iff tie r g b),
    luma_gray tie r⟩

/-! ### The tiles of the raster -/

/-- R150 with the tile edge as the numeral that arithmetic needs. -/
theorem pixelY_eq (s : State) (n k : Nat) : pixelY s n k = 8 * tileRow s n + k / 8 := rfl

theorem pixelX_eq (s : State) (n k : Nat) : pixelX s n k = 8 * tileCol s n + k % 8 := rfl

/-- The tile at grid position (i, j) has that row and column (R150). -/
theorem tileRow_tileCol_at {s : State} (i : Nat) {j : Nat} (hj : j < s.tilesX.toNat) :
    tileRow s (i * s.tilesX.toNat + j) = i ∧ tileCol s (i * s.tilesX.toNat + j) = j := by
  constructor
  · rw [tileRow, Nat.mul_comm, Nat.mul_add_div (by omega), Nat.div_eq_of_lt hj, Nat.add_zero]
  · rw [tileCol, Nat.mul_comm, Nat.mul_add_mod, Nat.mod_eq_of_lt hj]

/-- The index of a tile, from its row and column (R150). -/
theorem tileRow_mul_add_tileCol (s : State) (n : Nat) : tileRow s n * s.tilesX.toNat + tileCol s n = n :=
  Nat.div_add_mod' n s.tilesX.toNat

/-- A grid position inside the grid has an index below TILES_X × TILES_Y. -/
theorem tileAt_lt {tx ty i j : Nat} (hi : i < ty) (hj : j < tx) : i * tx + j < tx * ty :=
  calc i * tx + j < i * tx + tx := by omega
    _ = (i + 1) * tx := (Nat.succ_mul i tx).symm
    _ ≤ ty * tx := Nat.mul_le_mul_right tx hi
    _ = tx * ty := Nat.mul_comm ty tx

/-- Settles O38: a pixel's tile row and its row in the tile are the quotient and the remainder of its row by 8, and so
for columns. -/
theorem tilesPartitionTheRaster : Obligations.TilesPartitionTheRaster := by
  intro s y x hwidth hheight hy hx
  obtain ⟨hrow, hcol⟩ := tileRow_tileCol_at (s := s) (y / 8) (j := x / 8) (by omega)
  refine ⟨⟨tileAt_lt (by omega) (by omega), ?_, ?_⟩, fun n k hk hny hnx => ?_⟩
  · rw [pixelY_eq, hrow]
    omega
  · rw [pixelX_eq, hcol]
    omega
  · rw [pixelY_eq] at hny
    rw [pixelX_eq] at hnx
    have hi : y / 8 = tileRow s n := by omega
    have hj : x / 8 = tileCol s n := by omega
    exact ⟨by rw [hi, hj, tileRow_mul_add_tileCol], by omega⟩

/-- A pixel inside the raster has its last byte inside the active region (R71, R152). -/
theorem pixelAddr_add_channels_le {s : State} {y x : Nat} (hy : y < s.height.toNat) (hx : x < s.width.toNat) :
    pixelAddr s y x + channels s.fmt ≤ s.srcBase.toNat + rasterBytes s := by
  have hpixels : y * s.width.toNat + x + 1 ≤ s.width.toNat * s.height.toNat := tileAt_lt hy hx
  calc pixelAddr s y x + channels s.fmt
      = s.srcBase.toNat + (y * s.width.toNat + x + 1) * channels s.fmt := by
        rw [pixelAddr, Nat.succ_mul, Nat.add_assoc]
    _ ≤ s.srcBase.toNat + rasterBytes s := Nat.add_le_add_left (Nat.mul_le_mul_right _ hpixels) _

/-- The row and the column of a tile of the grid lie in the grid. -/
theorem tile_in_grid {s : State} {n : Nat} (hinv : BlockInv s) (hn : n < s.tileCount.toNat) :
    tileRow s n < s.tilesY.toNat ∧ tileCol s n < s.tilesX.toNat := by
  rw [hinv.count_eq] at hn
  have hpos : 0 < s.tilesX.toNat := Nat.pos_of_mul_pos_right (Nat.zero_lt_of_lt hn)
  exact ⟨Nat.div_lt_of_lt_mul hn, Nat.mod_lt n hpos⟩

/-- In a run every pixel of a tile of the grid lies in the raster (R151). -/
theorem pixel_in_raster {s : State} {n k : Nat} (hinv : BlockInv s) (hrun : s.state = .run) (hn : n < s.tileCount.toNat)
    (hk : k < 64) : pixelY s n k < s.height.toNat ∧ pixelX s n k < s.width.toNat := by
  obtain ⟨hwidth, hheight, -, -⟩ := hinv.run_config hrun
  obtain ⟨hrow, hcol⟩ := tile_in_grid hinv hn
  rw [pixelY_eq, pixelX_eq]
  omega

/-- In a run no tile of the grid reaches past source memory (R106, R152). -/
theorem tileEnd_le {s : State} {n : Nat} (hinv : BlockInv s) (hrun : s.state = .run) (hn : n < s.tileCount.toNat) :
    tileEnd s n ≤ Config.addrSpace := by
  obtain ⟨-, -, -, hrange⟩ := hinv.run_config hrun
  obtain ⟨hy, hx⟩ := pixel_in_raster hinv hrun hn (k := 63) (by omega)
  exact (pixelAddr_add_channels_le hy hx).trans hrange

/-! ### The samples that the engine reads -/

theorem memRead_eq_none_iff {s : State} {n a : Nat} : memRead s n a = none ↔ readError s.platform a = true := by
  unfold memRead
  cases readError s.platform a <;> simp

theorem channels_gray {fmt : BitVec 2} (h : fmt = 0) : channels fmt = 1 := if_pos h

theorem channels_color {fmt : BitVec 2} (h : fmt ≠ 0) : channels fmt = 3 := if_neg h

/-- The sample of a gray pixel is its byte (R155). -/
theorem sampleAt_gray {s : State} (h : s.fmt = 0) (n y x : Nat) : sampleAt s n y x = memRead s n (pixelAddr s y x) :=
  if_pos (channels_gray h)

/-- The sample of a color pixel is the luma of its three bytes (R155). -/
theorem sampleAt_color {s : State} (h : s.fmt ≠ 0) {n y x : Nat} {r g b : Byte}
    (hr : memRead s n (pixelAddr s y x) = some r)
    (hg : memRead s (n + 1) (pixelAddr s y x + 1) = some g) (hb : memRead s (n + 2) (pixelAddr s y x + 2) = some b) :
    sampleAt s n y x = some (luma s.platform.lumaTie r g b) := by
  simp [sampleAt, channels_color h, hr, hg, hb]

/-- A color pixel has no sample exactly when one of its three bytes has no answer (R155). -/
theorem sampleAt_color_eq_none_iff {s : State} (h : s.fmt ≠ 0) (n y x : Nat) :
    sampleAt s n y x = none ↔ memRead s n (pixelAddr s y x) = none ∨ memRead s (n + 1) (pixelAddr s y x + 1) = none ∨
      memRead s (n + 2) (pixelAddr s y x + 2) = none := by
  rw [sampleAt, if_neg (by simp [channels_color h])]
  split
  case h_1 _ _ _ hr hg hb => simp [hr, hg, hb]
  case h_2 hmissing =>
    refine iff_of_true rfl ?_
    by_contra hall
    simp only [not_or, Option.ne_none_iff_exists'] at hall
    obtain ⟨⟨r, hr⟩, ⟨g, hg⟩, ⟨b, hb⟩⟩ := hall
    exact hmissing r g b hr hg hb

/-- A pixel has no sample exactly when one of its bytes answers ReadError (R155). -/
theorem sampleAt_eq_none_iff {s : State} (n y x : Nat) :
    sampleAt s n y x = none ↔ ∃ j < channels s.fmt, readError s.platform (pixelAddr s y x + j) = true := by
  by_cases h : s.fmt = 0
  · rw [sampleAt_gray h, channels_gray h, memRead_eq_none_iff]
    simp
  · rw [sampleAt_color_eq_none_iff h, channels_color h]
    simp only [memRead_eq_none_iff, Nat.exists_lt_succ_right, Nat.not_lt_zero]
    simp [or_assoc]

/-- A tile has no value exactly when one of its bytes answers ReadError (R155). -/
theorem tileSamples_eq_none_iff_byte_fails {s : State} {n : Nat} :
    tileSamples s n = none ↔ ∃ k < 64, ∃ j < channels s.fmt, TileByteFails s n k j := by
  simp only [tileSamples_eq_none_iff, sampleAt_eq_none_iff, TileByteFails]

/-- A tile whose bytes can all be read has a value (R155). -/
theorem tileSamples_of_readable {s : State} {n : Nat} (h : TileReadable s n) : ∃ bs, tileSamples s n = some bs := by
  cases htile : tileSamples s n with
  | some bs => exact ⟨bs, rfl⟩
  | none =>
    obtain ⟨k, hk, j, hj, hfails⟩ := tileSamples_eq_none_iff_byte_fails.mp htile
    exact absurd hfails (h k j hk hj)

/-- In a run without a race a byte that was read ahead is the byte stored, so the oracle answers the byte stored
(R62, R77). -/
theorem oracleByte_of_hiddenInv {s : State} (hinv : HiddenInv s) (hrun : s.state = .run) (hrace : s.srcRace = false)
    (n a : Nat) : oracleByte s n a = Memory.read s.sourceMem a := by
  rw [oracleByte, hrace]
  cases hlookup : s.hidden.lookup a with
  | none => rfl
  | some b =>
    obtain ⟨l, r, hhidden, -⟩ := List.lookup_eq_some_iff.mp hlookup
    obtain ⟨-, hstored⟩ := hinv hrun hrace (a, b) (by simp [hhidden])
    exact hstored.symm

/-- In a run without a race a byte that can be read answers the byte stored (R62). -/
theorem memRead_of_hiddenInv {s : State} (hinv : HiddenInv s) (hrun : s.state = .run) (hrace : s.srcRace = false)
    (n : Nat) {a : Nat} (ha : readError s.platform a = false) : memRead s n a = some (Memory.read s.sourceMem a) :=
  memRead_eq_some_iff.mpr ⟨ha, oracleByte_of_hiddenInv hinv hrun hrace n a⟩

theorem rasterSample_gray {s : State} (h : s.fmt = 0) (y x : Nat) :
    rasterSample s y x = Memory.read s.sourceMem (pixelAddr s y x) := by
  rw [rasterSample, if_pos h, pixelAddr, channels_gray h, Nat.mul_one]

theorem rasterSample_color {s : State} (h : s.fmt ≠ 0) (y x : Nat) :
    rasterSample s y x = luma s.platform.lumaTie (Memory.read s.sourceMem (pixelAddr s y x))
      (Memory.read s.sourceMem (pixelAddr s y x + 1)) (Memory.read s.sourceMem (pixelAddr s y x + 2)) := by
  rw [rasterSample, if_neg h, pixelAddr, channels_color h, Nat.mul_comm _ 3]

/-- In a run without a race a pixel whose bytes can be read has the raster's sample (R155). -/
theorem sampleAt_of_hiddenInv {s : State} (hinv : HiddenInv s) (hrun : s.state = .run) (hrace : s.srcRace = false)
    (n y x : Nat) (h : ∀ j < channels s.fmt, readError s.platform (pixelAddr s y x + j) = false) :
    sampleAt s n y x = some (rasterSample s y x) := by
  have hread (i j : Nat) (hj : j < channels s.fmt) := memRead_of_hiddenInv hinv hrun hrace i (h j hj)
  by_cases hfmt : s.fmt = 0
  · rw [channels_gray hfmt] at hread
    rw [sampleAt_gray hfmt, rasterSample_gray hfmt]
    exact hread n 0 (by omega)
  · rw [channels_color hfmt] at hread
    rw [rasterSample_color hfmt]
    exact sampleAt_color hfmt (hread n 0 (by omega)) (hread (n + 1) 1 (by omega)) (hread (n + 2) 2 (by omega))

/-- In a run without a race the value of a tile is the raster's samples in it, row by row (R155). -/
theorem tileSamples_raster {s : State} {n : Nat} {bs : List Byte} (hinv : HiddenInv s) (hrun : s.state = .run)
    (hrace : s.srcRace = false) (hreadable : TileReadable s n) (h : tileSamples s n = some bs) {k : Nat}
    (hk : k < bs.length) : bs[k] = rasterSample s (pixelY s n k) (pixelX s n k) := by
  obtain ⟨hlength, hsample⟩ := tileSamples_eq_some h
  have hraster := sampleAt_of_hiddenInv hinv hrun hrace (3 * k) (pixelY s n k) (pixelX s n k)
    fun j hj => Bool.eq_false_iff.mpr (hreadable k j (hlength ▸ hk) hj)
  exact Option.some.inj ((hsample k hk).symm.trans hraster)

/-! ### ENGINE_LOAD and ENGINE_FAULT -/

/-- In a state that meets BlockInv, an enabled engine step with an answering memory is decided by the next tile's value
alone: neither of the model's two faults is raised (R157). -/
theorem engineStep_of_ready {s : State} (hinv : BlockInv s) (hready : EngineReady s) (hanswers : s.memAnswers = true) :
    (∀ bs, tileSamples s s.tileIndex.toNat = some bs → engineStep s = .next (engineLoad bs s)) ∧
    (tileSamples s s.tileIndex.toNat = none → engineStep s = .next (raiseError .sourceReadError s)) := by
  have henabled : (engineEnabled s && s.memAnswers) = true := by
    rw [engineEnabled_iff.mpr hready, hanswers, Bool.and_self]
  obtain ⟨hrun, -, hremaining⟩ := hready
  have hgrid : s.tilesX ≠ 0 := fun hzero => by
    obtain ⟨-, hcol⟩ := tile_in_grid hinv hremaining
    simp [hzero] at hcol
  have hspace : ¬ Config.addrSpace < tileEnd s s.tileIndex.toNat := (tileEnd_le hinv hrun hremaining).not_gt
  constructor
  · intro bs hbs
    rw [engineStep, if_pos henabled, if_neg hgrid, if_neg hspace, hbs]
  · intro hnone
    rw [engineStep, if_pos henabled, if_neg hgrid, if_neg hspace, hnone]

/-- Settles O34: the failing byte leaves its tile without a value. -/
theorem engineFaultRaisesSourceReadError : Obligations.EngineFaultRaisesSourceReadError := by
  intro s k j hinv hready hanswers hk hj hfails
  obtain ⟨-, hfault⟩ := engineStep_of_ready hinv hready hanswers
  have hrun : s.state = .run := hready.1
  have hnone : tileSamples s s.tileIndex.toNat = none := tileSamples_eq_none_iff_byte_fails.mpr ⟨k, hk, j, hj, hfails⟩
  rw [hfault hnone, raiseError_outside_error (by simp [hrun])]

/-- The tile that ENGINE_LOAD presents for the samples `bs` (R158). -/
def nextTile (bs : List Byte) (s : State) : Tile :=
  { data := packSamples bs, index := s.tileIndex, row := BitVec.ofNat 16 (tileRow s s.tileIndex.toNat),
    col := BitVec.ofNat 16 (tileCol s s.tileIndex.toNat), last := s.tileIndex.toNat + 1 == s.tileCount.toNat }

theorem engineLoad_eq (bs : List Byte) (s : State) :
    engineLoad bs s = { drawTileReads s with port := some (nextTile bs s) } := rfl

/-- Without a race ENGINE_LOAD writes the port only: no free value is drawn (R158). -/
theorem engineLoad_no_race {s : State} (h : s.srcRace = false) (bs : List Byte) :
    engineLoad bs s = { s with port := some (nextTile bs s) } := by
  have hdraw : drawTileReads s = s := by rw [drawTileReads, if_neg (by simp [h])]
  rw [engineLoad_eq, hdraw]

/-- The grid has at most 8191 rows and columns, so the port's 16 bits hold the tile's row and column (R86, R150). -/
theorem nextTile_sideband {s : State} (hinv : BlockInv s) (hremaining : s.tileIndex.toNat < s.tileCount.toNat)
    (bs : List Byte) : Sideband s s.tileIndex.toNat (nextTile bs s) := by
  obtain ⟨hrow, hcol⟩ := tile_in_grid hinv hremaining
  obtain ⟨hx, hy⟩ := hinv.grid_bound
  refine ⟨rfl, ?_, ?_, beq_iff_eq⟩
  · exact (BitVec.toNat_ofNat _ 16).trans (Nat.mod_eq_of_lt (by omega))
  · exact (BitVec.toNat_ofNat _ 16).trans (Nat.mod_eq_of_lt (by omega))

/-- Cell (r, c) of the tile presented is sample 8r + c (R86). -/
theorem nextTile_cell {bs : List Byte} (hlength : bs.length = 64) (s : State) {r c : Nat} (hk : 8 * r + c < bs.length) :
    (nextTile bs s).cell r c = bs[8 * r + c] :=
  packSamples_sample bs (8 * r + c) hk hlength.le

/-- Settles O33: the engine presents `nextTile` of the tile's samples, and these are the raster's. -/
theorem engineLoadPresentsTheNextTile : Obligations.EngineLoadPresentsTheNextTile := by
  intro s hinv hhidden hrace hready hanswers hreadable
  obtain ⟨hload, -⟩ := engineStep_of_ready hinv hready hanswers
  obtain ⟨hrun, -, hremaining⟩ := hready
  obtain ⟨bs, hbs⟩ := tileSamples_of_readable hreadable
  obtain ⟨hlength, -⟩ := tileSamples_eq_some hbs
  refine ⟨nextTile bs s, engineLoad_no_race hrace bs ▸ hload bs hbs, nextTile_sideband hinv hremaining bs,
    fun r c hr hc => ?_⟩
  have hk : 8 * r + c < bs.length := by omega
  have hy : pixelY s s.tileIndex.toNat (8 * r + c) = 8 * (s.tileIndex.toNat / s.tilesX.toNat) + r := by
    rw [pixelY_eq, tileRow]
    omega
  have hx : pixelX s s.tileIndex.toNat (8 * r + c) = 8 * (s.tileIndex.toNat % s.tilesX.toNat) + c := by
    rw [pixelX_eq, tileCol]
    omega
  rw [nextTile_cell hlength s hk, tileSamples_raster hhidden hrun hrace hreadable hbs hk, hy, hx]

/-! ### TAKE -/

/-- A consumer step out of reset (R87, R240). -/
theorem step_consumer {s : State} {tReady : Bool} {rest : List Event} (h : s.schedule = .consumer tReady :: rest)
    (hrst : s.rst = false) : step s = .next (consumerStep tReady { s with schedule := rest }) := by
  simp [step_cons h, runEvent, hrst]

/-- Where a tile is presented and `t_ready` is 1 the consumer takes the tile (R159). -/
theorem consumerStep_transfer {s : State} {tile : Tile} (h : s.port = some tile) :
    consumerStep true s = takeTile tile s := by
  rw [consumerStep, h]
  rfl

/-- With no tile or no `t_ready` there is no transfer (R87). -/
theorem consumerStep_no_transfer {s : State} {tReady : Bool} (h : s.port = none ∨ tReady = false) :
    consumerStep tReady s = s := by
  obtain ⟨hstill, -⟩ | ⟨tile, hport, hready, -⟩ := consumerStep_cases tReady s
  · exact hstill
  · simp [hport, hready] at h

/-- The tile presented is the last exactly where the advanced TILE_INDEX equals TILE_COUNT, as numbers: it does not wrap
(R159). -/
theorem BlockInv.tileIndex_succ_eq_count_iff {s : State} {tile : Tile} (hinv : BlockInv s)
    (hport : s.port = some tile) : s.tileIndex + 1 = s.tileCount ↔ s.tileIndex.toNat + 1 = s.tileCount.toNat := by
  rw [← hinv.tileIndex_succ hport, BitVec.toNat_inj]

/-- Settles O35: while a tile is presented the block is in RUN and TILE_INDEX + 1 does not wrap, so the transfer's test
for the last tile is the one on numbers. -/
theorem takeDeliversThePresentedTile : Obligations.TakeDeliversThePresentedTile := by
  intro s tReady rest hrst hschedule
  rw [step_consumer hschedule hrst]
  refine ⟨?_, fun h => congrArg Host.Outcome.next (consumerStep_no_transfer h)⟩
  rintro tile hinv hport rfl
  refine ⟨s.tileIndex + 1, hinv.tileIndex_succ hport, ?_⟩
  have hrun : s.state = .run := hinv.presented_in_run (by simp [hport])
  rw [consumerStep_transfer (s := { s with schedule := rest }) hport]
  simp only [takeTile, hinv.tileIndex_succ_eq_count_iff hport, hrun]

end Sys2Proof.Machine
end

