-- ==== Sys2Proof/Proofs/Exceptions.lean ====
section
/-! PROOF. The error entry (R202), and the block outside RUN: it is quiescent, and only a command or reset changes STATE
there (R25, R203). -/

namespace Sys2Proof.Machine

open Claims

/-- Settles O25, by STATE: in ERROR the first error is kept, and every other state enters ERROR. -/
theorem errorEntryKeepsTheFirstError : Obligations.ErrorEntryKeepsTheFirstError :=
  fun _ _ => ⟨raiseError_in_error, raiseError_outside_error⟩

/-! ### The engine and the consumer outside RUN -/

/-- The engine is enabled in RUN only (R157). -/
theorem engineStep_outside_run {s : State} (h : s.state ≠ .run) : engineStep s = .next s :=
  engineStep_disabled (Bool.eq_false_iff.mpr fun henabled => h (engineEnabled_iff.mp henabled).1)

/-- No byte of source memory is read outside RUN (R161). -/
theorem readAhead_outside_run {s : State} (a : Word) (h : s.state ≠ .run) : readAhead a s = s := by
  simp [readAhead, h]

/-- A tile is presented only in RUN (R25). -/
theorem BlockInv.port_eq_none {s : State} (hinv : BlockInv s) (h : s.state ≠ .run) : s.port = none := by
  cases hport : s.port with
  | none => rfl
  | some tile => exact absurd (hinv.presented_in_run (by simp [hport])) h

/-- With no event left, a step outside RUN changes nothing. -/
theorem idleStep_outside_run {s : State} (h : s.state ≠ .run) : idleStep s = .next s := by
  simp [idleStep, engineStep_outside_run h]

/-- Outside RUN, with no tile presented, a scheduled step of the engine or the consumer changes nothing. -/
theorem runEvent_engine_or_consumer_outside_run {e : Event} {s : State} (hrun : s.state ≠ .run) (hport : s.port = none)
    (he : e = .engine ∨ (∃ a, e = .readAhead a) ∨ ∃ l, e = .consumer l) : runEvent e s = .next s := by
  obtain rfl | ⟨a, rfl⟩ | ⟨l, rfl⟩ := he
  · simp [runEvent, engineStep_outside_run hrun]
  · simp [runEvent, readAhead_outside_run a hrun]
  · simp [runEvent, consumerStep_no_transfer (.inl hport)]

/-! ### What changes STATE outside RUN -/

/-- An instruction that is no command keeps STATE (R24). -/
theorem exec_state_of_not_command {i : Instr} {s t : State} (hi : isCommand i = false) (h : exec i s = .next t) :
    t.state = s.state := by
  have hcmd : ∀ d, i ≠ .wrCmd d := by
    rintro d rfl
    cases hi
  obtain ⟨r, u, hnext, e⟩ := exec_effect i s hcmd
  cases hnext.symm.trans h
  cases e with
  | start _ | abort | clearError _ | clearIgn _ | illegal w => cases hi
  | _ => rfl

/-- The release of `rst` keeps the STATE of a block that it finds held at IDLE (R240). -/
theorem setResetPin_false_state {s : State} (hheld : s.rst = true → s.state = .idle) :
    (setResetPin false s).state = s.state := by
  cases hrst : s.rst with
  | false => simp [setResetPin, hrst]
  | true => simp [setResetPin, hrst, hheld hrst]

/-- The next instruction of the schedule keeps STATE, or it is a command (R24). -/
theorem nextInstr_state_or_command {i : Instr} {s t : State} {rest : List Event} (hi : nextInstr s = some i)
    (h : exec i { s with schedule := rest } = .next t) :
    t.state = s.state ∨ ∃ i, nextInstr s = some i ∧ isCommand i = true := by
  cases hcommand : isCommand i with
  | false => exact .inl (exec_state_of_not_command (s := { s with schedule := rest }) hcommand h)
  | true => exact .inr ⟨i, hi, hcommand⟩

/-- An event outside RUN keeps STATE, or it is a command of the host or a reset (R25). -/
theorem event_state_outside_run {s t : State} {e : Event} {rest : List Event} (hinv : BlockInv s)
    (hrun : s.state ≠ .run) (he : s.schedule = e :: rest) (m : EventMove { s with schedule := rest } e t) :
    (t.state = s.state ∨ ∃ i, nextInstr s = some i ∧ isCommand i = true) ∨ e = .resetPin true := by
  have hrun' : ({ s with schedule := rest } : State).state ≠ .run := hrun
  have hport' : ({ s with schedule := rest } : State).port = none := hinv.port_eq_none hrun
  cases m with
  | still _ => exact .inl (.inl rfl)
  | host w _ _ h => exact .inl (nextInstr_state_or_command (nextInstr_host he) h)
  | hostBus we size addr d x _ _ hx h => exact .inl (nextInstr_state_or_command (nextInstr_hostBus he hx) h)
  | engine _ _ h =>
    cases (engineStep_outside_run hrun').symm.trans h
    exact .inl (.inl rfl)
  | readAhead a _ => exact .inl (.inl (by rw [readAhead_outside_run a hrun']))
  | consumer l _ => exact .inl (.inl (by rw [consumerStep_no_transfer (.inl hport')]))
  | poke a b => exact .inl (.inl (pokeByte_state a b _))
  | memoryAnswers l => exact .inl (.inl (setMemAnswers_state l _))
  | resetPin l =>
    cases l with
    | true => exact .inr rfl
    | false => exact .inl (.inl (setResetPin_false_state fun hrst => (hinv.reset_held hrst).1))

/-- A step outside RUN keeps STATE, or it is a command of the host or a reset (R25). -/
theorem step_state_outside_run {s t : State} (hinv : BlockInv s) (hrun : s.state ≠ .run) (h : step s = .next t) :
    (t.state = s.state ∨ ∃ i, nextInstr s = some i ∧ isCommand i = true) ∨
      ∃ rest, s.schedule = .resetPin true :: rest := by
  cases he : s.schedule with
  | nil =>
    cases ((step_nil he).trans (idleStep_outside_run hrun)).symm.trans h
    exact .inl (.inl rfl)
  | cons e rest =>
    exact (event_state_outside_run hinv hrun he (step_event_cases h he)).imp_right fun hreset => ⟨rest, by rw [hreset]⟩

/-- Settles O46: ERROR is a state outside RUN, so no tile is presented, the engine and the consumer are halted, and only a
command or reset changes STATE. -/
theorem errorHaltsEngineAndConsumer : Obligations.ErrorHaltsEngineAndConsumer := by
  intro s hinv herror
  have hrun : s.state ≠ .run := by simp [herror]
  have hport : s.port = none := hinv.port_eq_none hrun
  refine ⟨hport, fun hempty => (step_nil hempty).trans (idleStep_outside_run hrun), fun e rest hs he => ?_,
    fun t h hleft => ?_⟩
  · exact (step_cons hs).trans (runEvent_engine_or_consumer_outside_run hrun hport he)
  · exact (step_state_outside_run hinv hrun h).imp_left fun hstate =>
      hstate.resolve_left fun hkept => hleft (hkept.trans herror)

end Sys2Proof.Machine
end

