-- ==== Sys2Proof/Proofs/Encoding.lean ====
section
/-! PROOF. The decoder and the encoder are inverse to each other (spec/30_encoding.md R81, R83, R89), a word has the
bits that the opcode table fixes for its row (R88), and a host event runs the instruction of its word. -/

namespace Sys2Proof

/-! ### The row of a descriptor, by its fields -/

/-- The decoder's tests in their order, on the three fields of a descriptor (R89). -/
theorem decodeBus_descriptor (we : Bool) (size : Size) (o : Offset) (d : Word) :
    decodeBus (descriptor we size o) d =
      if size = 3 then .busErrSize3 we o
      else if size ≠ 2 then .busErrSize we (size == 1) o
      else if o.getLsbD 0 then .busErrAlign1 we o
      else if o.getLsbD 1 then .busErrAlign2 we o
      else if we then decodeWrite o d
      else decodeRead o := by
  rw [decodeBus, descSize_descriptor, descWe_descriptor, descOffset_descriptor]

/-- A size that is neither 0b10 nor 0b11 is 0b01 or 0b00, as the row BUSERR_SIZE tells them apart (R81). -/
theorem size_eq_half {size : Size} (h3 : size ≠ 3) (h2 : size ≠ 2) :
    (if (size == 1) = true then 1 else 0) = size := by
  revert size
  decide

/-- An offset's low two bits, from its bits. -/
theorem offset_lowBits (o : Offset) :
    o.extractLsb' 0 2 = BitVec.ofBool (o.getLsbD 1) ++ BitVec.ofBool (o.getLsbD 0) := by
  apply BitVec.eq_of_getLsbD_eq
  intro i hi
  rw [BitVec.getLsbD_append, BitVec.getLsbD_ofBool, BitVec.getLsbD_ofBool]
  obtain rfl | rfl : i = 0 ∨ i = 1 := by omega
  · simp
  · simp

/-- An aligned offset is that of one of the twelve named registers, or reserved (R70). -/
theorem aligned_offset_named_or_reserved {o : Offset} (h : o.extractLsb' 0 2 = 0) :
    (∃ j : Fin 12, o = BitVec.ofNat 12 (4 * j)) ∨ Offset.reserved o = true := by
  have hmod : o.toNat % 4 = 0 := by simpa [BitVec.extractLsb'_toNat] using congrArg BitVec.toNat h
  by_cases hlow : o.toNat < 0x030
  · refine .inl ⟨⟨o.toNat / 4, by omega⟩, BitVec.eq_of_toNat_eq ?_⟩
    rw [BitVec.toNat_ofNat]
    dsimp only
    omega
  · exact .inr (by simp [Offset.reserved, Offset.aligned, h, Nat.le_of_not_lt hlow])

theorem reserved_low {o : Offset} (h : Offset.reserved o = true) : 0x030 ≤ o.toNat := by
  simp only [Offset.reserved, Bool.and_eq_true, decide_eq_true_eq] at h
  exact h.2

/-! ### From the word to the instruction and back -/

/-- The row read at an aligned offset has that offset's word (R70, R81). -/
theorem decodeRead_reencodes {o : Offset} (h : o.extractLsb' 0 2 = 0) :
    (decodeRead o).wf = true ∧ encode (decodeRead o) = readWord o := by
  obtain ⟨j, rfl⟩ | hreserved := aligned_offset_named_or_reserved h
  · clear h
    revert j
    decide
  · rw [decodeRead_reserved (reserved_low hreserved)]
    exact ⟨hreserved, rfl⟩

/-- The row written at an aligned offset has that offset's word, with its DATA (R70, R81). -/
theorem decodeWrite_reencodes {o : Offset} (d : Word) (h : o.extractLsb' 0 2 = 0) :
    (decodeWrite o d).wf = true ∧ encode (decodeWrite o d) = writeWord o d := by
  obtain ⟨j, rfl⟩ | hreserved := aligned_offset_named_or_reserved h
  · fin_cases j <;> exact ⟨rfl, rfl⟩
  · rw [decodeWrite_reserved d (reserved_low hreserved)]
    exact ⟨hreserved, rfl⟩

/-- A host access is well formed and has its descriptor's word; its DATA is kept where it is a legal write (R89). -/
theorem decodeBus_reencodes (we : Bool) (size : Size) (o : Offset) (d : Word) :
    (decodeBus (descriptor we size o) d).wf = true ∧
      encode (decodeBus (descriptor we size o) d) =
        .bus (descriptor we size o) (if we = true ∧ size = 2 ∧ o.extractLsb' 0 2 = 0 then d else 0) := by
  rw [decodeBus_descriptor]
  split
  · subst size
    exact ⟨rfl, by rw [if_neg (by simp), encode]⟩
  next hsize3 =>
  split
  next hsize2 => exact ⟨rfl, by rw [if_neg fun ⟨_, h, _⟩ => hsize2 h, encode, size_eq_half hsize3 hsize2]⟩
  next hsize2 =>
  obtain rfl : size = 2 := not_not.mp hsize2
  split
  next hbit0 =>
    have hodd : o.extractLsb' 0 2 ≠ 0 := fun h => by
      obtain ⟨heven, -⟩ := offset_lowBits_eq_zero_iff.mp h
      exact Bool.false_ne_true (heven.symm.trans hbit0)
    exact ⟨hbit0, by rw [if_neg fun ⟨_, _, h⟩ => hodd h, encode]⟩
  next hbit0 =>
  split
  next hbit1 =>
    have htwo : o.extractLsb' 0 2 = 2 := by
      rw [offset_lowBits, hbit1, Bool.eq_false_iff.mpr hbit0]
      rfl
    exact ⟨beq_iff_eq.mpr htwo, by rw [if_neg (by simp [htwo]), encode]⟩
  next hbit1 =>
  have haligned : o.extractLsb' 0 2 = 0 :=
    offset_lowBits_eq_zero_iff.mpr ⟨Bool.eq_false_iff.mpr hbit0, Bool.eq_false_iff.mpr hbit1⟩
  cases we with
  | true => simpa [haligned, writeWord] using decodeWrite_reencodes d haligned
  | false => simpa [readWord] using decodeRead_reencodes haligned

/-- A CMD word is well formed as its row and is that row's word (R83). -/
theorem decodeCmd_reencodes (w : Word) : (decodeCmd w).wf = true ∧ encode (decodeCmd w) = .cmd w := by
  unfold decodeCmd
  obtain ⟨rfl, hc⟩ | ⟨rfl, hc⟩ | ⟨rfl, hc⟩ | ⟨rfl, hc⟩ | ⟨hw, hc⟩ := decodeCommand_cases w <;> rw [hc]
  case inr.inr.inr.inr => exact ⟨decide_eq_true hw, rfl⟩
  all_goals exact ⟨rfl, rfl⟩

/-- Settles O2: a descriptor is its three fields, and the decoder's tests on them leave one row each. -/
theorem everyWordDecodesAndReencodes : Obligations.EveryWordDecodesAndReencodes := by
  refine ⟨fun x d => ?_, decodeCmd_reencodes⟩
  simpa only [descriptor_fields] using decodeBus_reencodes (descWe x) (descSize x) (descOffset x) d

theorem decodeWord_wf (h : HostWord) : (decodeWord h).wf = true := by
  obtain ⟨hbus, hcmd⟩ := everyWordDecodesAndReencodes
  cases h with
  | bus x d => exact (hbus x d).1
  | cmd w => exact (hcmd w).1

/-! ### From the instruction to the word and back -/

/-- Settles O1, row by row: the illegal accesses by the decoder's tests on their fields, the reserved registers by
their offset, the illegal commands by their word; the word of every other row is written out. -/
theorem decodeEncodeRoundTrip : Obligations.DecodeEncodeRoundTrip := by
  intro i hwf
  cases i with
  | busErrSize we half o => cases half <;> exact decodeBus_descriptor ..
  | busErrSize3 we o => exact decodeBus_descriptor ..
  | busErrAlign1 we o =>
    have hbit0 : o.getLsbD 0 = true := hwf
    rw [encode, decodeWord, decodeBus_descriptor, if_neg (by decide), if_neg (by decide), if_pos hbit0]
  | busErrAlign2 we o =>
    have hlow : o.extractLsb' 0 2 = 2 := eq_of_beq hwf
    have hbit (i : Nat) := congrArg (·.getLsbD i) hlow
    have hbit0 : ¬ o.getLsbD 0 = true := by simpa using hbit 0
    have hbit1 : o.getLsbD 1 = true := by simpa using hbit 1
    rw [encode, decodeWord, decodeBus_descriptor, if_neg (by decide), if_neg (by decide), if_neg hbit0, if_pos hbit1]
  | rdReserved o =>
    exact (decodeBus_read 0 (Laws.RowPattern.reserved_aligned hwf)).trans (decodeRead_reserved (reserved_low hwf))
  | wrReserved o d =>
    exact (decodeBus_write d (Laws.RowPattern.reserved_aligned hwf)).trans (decodeWrite_reserved d (reserved_low hwf))
  | illegalCmd w => exact Machine.decodeWord_cmd_illegal (of_decide_eq_true hwf)
  | _ => rfl

/-- Settles O4: the bits written out are those of each row's format. -/
theorem writtenOutWordsDecode : Obligations.WrittenOutWordsDecode :=
  ⟨rfl, rfl, rfl, rfl, rfl, rfl, rfl, rfl, rfl, rfl⟩

/-! ### The opcode table -/

/-- The word of every well-formed instruction fits its row (R88). -/
theorem encode_fits_row (i : Instr) : Laws.RowPattern.Statement i := by
  cases i with
  | busErrSize we half o => exact Laws.RowPattern.busErrSize we half o
  | busErrSize3 we o => exact Laws.RowPattern.busErrSize3 we o
  | busErrAlign1 we o => exact Laws.RowPattern.busErrAlign1 we o
  | busErrAlign2 we o => exact Laws.RowPattern.busErrAlign2 we o
  | rdReserved o => exact Laws.RowPattern.rdReserved o
  | wrReserved o d => exact Laws.RowPattern.wrReserved o d
  | illegalCmd w => exact Laws.RowPattern.illegalCmd w
  | _ => exact fun _ => rfl

/-- The table fixes no bit of the DATA word. -/
theorem RowPattern.fits_bus_data (p : RowPattern) (x : Descriptor) (d d' : Word) :
    p.fits (.bus x d) = p.fits (.bus x d') := by
  cases p <;> rfl

/-- Settles O3: the word that the decoded row is encoded as fits the row, and it is the word itself but for its DATA.
-/
theorem decodedRowFitsOpcodeTable : Obligations.DecodedRowFitsOpcodeTable := by
  intro h
  have hfits := encode_fits_row (decodeWord h) (decodeWord_wf h)
  obtain ⟨hbus, hcmd⟩ := everyWordDecodesAndReencodes
  cases h with
  | bus x d =>
    rw [decodeWord, (hbus x d).2] at hfits
    exact (RowPattern.fits_bus_data ..).trans hfits
  | cmd w => rwa [decodeWord, (hcmd w).2] at hfits

end Sys2Proof

namespace Sys2Proof.Machine

/-! ### Host events -/

/-- Settles O5: the step is the decoded instruction, which is well formed. -/
theorem stepRunsDecodedInstruction : Obligations.StepRunsDecodedInstruction :=
  fun _ w _ hrst hschedule => ⟨decodeWord_wf w, step_host hschedule hrst⟩

/-- The window covers the addresses REG_BASE + OFFSET (R60, R81). -/
theorem windowDescriptor_inside (p : Platform) (we : Bool) (size : Size) (o : Offset) :
    windowDescriptor p we size (p.regBase + o.toNat) = some (descriptor we size o) := by
  have hinside : p.regBase ≤ p.regBase + o.toNat ∧ p.regBase + o.toNat < p.regBase + Config.regWindow := by
    unfold Config.regWindow
    omega
  rw [windowDescriptor, if_pos hinside, Nat.add_sub_cancel_left, BitVec.ofNat_toNat, BitVec.setWidth_eq]
  rfl

theorem windowDescriptor_outside {p : Platform} {addr : Nat} (we : Bool) (size : Size)
    (h : addr < p.regBase ∨ p.regBase + 4096 ≤ addr) : windowDescriptor p we size addr = none :=
  if_neg (by unfold Config.regWindow; omega)

/-- Settles O6: inside the window the bus adapter derives the descriptor of the offset, and outside it none. -/
theorem hostBusAccessUsesTheWindow : Obligations.HostBusAccessUsesTheWindow := by
  intro s we size addr d rest hrst hschedule
  have hstep : step s = hostBusAccess we size addr d { s with schedule := rest } := by
    simp [step_cons hschedule, runEvent, hrst]
  rw [hstep, hostBusAccess]
  refine ⟨?_, fun houtside => ?_⟩
  · rintro o rfl
    rw [windowDescriptor_inside]
    rfl
  · rw [windowDescriptor_outside we size houtside]

end Sys2Proof.Machine
end

