-- ==== Sys2Proof/Proofs/Instructions.lean ====
section
/-! PROOF. What the instructions have in common: the frame that each keeps (R24, R63, R100, R120), and in RUN the
difference between those that withdraw a presented tile and those that do not (R26, R36). Then the registers as they
are read back (R70, R84), and the four accesses of CONFIG (R91). -/

namespace Sys2Proof.Machine

open Claims

/-! ### The frame of every instruction -/

/-- From `s` to `u` source memory, the inputs of the block and the records of the other agents are kept. -/
structure KeepsAgents (s u : State) : Prop where
  sourceMem : u.sourceMem = s.sourceMem
  delivered : u.delivered = s.delivered
  platform : u.platform = s.platform
  memAnswers : u.memAnswers = s.memAnswers
  rst : u.rst = s.rst
  schedule : u.schedule = s.schedule
  freeDrawn : u.freeDrawn = s.freeDrawn

@[simp] theorem raiseError_state (c : ErrCode) (s : State) : (raiseError c s).state = .error := by
  by_cases herror : s.state = .error
  · rwa [raiseError_in_error herror]
  · rw [raiseError_outside_error herror]

theorem raiseError_keepsAgents (c : ErrCode) (s : State) : KeepsAgents s (raiseError c s) := by
  rw [raiseError_frame]
  exact ⟨rfl, rfl, rfl, rfl, rfl, rfl, rfl⟩

theorem startValidate_keepsAgents (s : State) : KeepsAgents s (startValidate (startFresh s)) := by
  rw [startValidate_frame]
  exact ⟨rfl, rfl, rfl, rfl, rfl, rfl, rfl⟩

theorem Effect.keepsAgents {i : Instr} {s u : State} (e : Effect s i u) : KeepsAgents s u := by
  cases e with
  | start _ => exact startValidate_keepsAgents s
  | illegal w => exact raiseError_keepsAgents .illegalCommand s
  | _ => exact ⟨rfl, rfl, rfl, rfl, rfl, rfl, rfl⟩

/-- Every instruction answers by an effect of its own row, or of the command that it writes to CMD (R125). -/
theorem exec_effect_cases {i : Instr} {s t : State} (h : exec i s = .next t) :
    ∃ r u j, t = respond r u ∧ Effect s j u ∧ (j = i ∨ ∃ d, i = .wrCmd d ∧ j = decodeCmd d) := by
  by_cases hcmd : ∃ d, i = .wrCmd d
  · obtain ⟨d, rfl⟩ := hcmd
    obtain ⟨r, u, hnext, e⟩ := exec_effect (decodeCmd d) s (decodeCmd_ne_wrCmd d)
    rw [exec_wrCmd, hnext] at h
    cases h
    exact ⟨r, u, _, rfl, e, .inr ⟨d, rfl, rfl⟩⟩
  · obtain ⟨r, u, hnext, e⟩ := exec_effect i s (not_exists.mp hcmd)
    cases hnext.symm.trans h
    exact ⟨r, u, i, rfl, e, .inl rfl⟩

theorem exec_keepsAgents {i : Instr} {s t : State} (h : exec i s = .next t) : KeepsAgents s t := by
  obtain ⟨r, u, j, rfl, e, -⟩ := exec_effect_cases h
  exact { e.keepsAgents with }

/-- From `s` to `u` the configuration registers and the interrupt enables are kept (R28 to R32). -/
theorem Effect.sameConfig {i : Instr} {s u : State} (e : Effect s i u) (hi : isCommand i = true ∨ i = .nop) :
    SameConfig u s := by
  cases e with
  | intEn d | width d _ | height d _ | format d _ | srcBase d _ =>
    obtain hi | hi := hi <;> cases hi
  | start _ =>
    rw [startValidate_frame]
    exact ⟨rfl, rfl, rfl, rfl, rfl⟩
  | illegal w =>
    rw [raiseError_frame]
    exact ⟨rfl, rfl, rfl, rfl, rfl⟩
  | _ => exact ⟨rfl, rfl, rfl, rfl, rfl⟩

/-- A CMD word is a command that may change STATE, or NOP (R83). -/
theorem isCommand_decodeCmd (w : Word) : isCommand (decodeCmd w) = true ∨ decodeCmd w = .nop := by
  unfold decodeCmd
  cases decodeCommand w with
  | nop => exact .inr rfl
  | _ => exact .inl rfl

/-- A command keeps the configuration registers and the interrupt enables, whether by its own row or written to CMD.
-/
theorem exec_command_sameConfig {i : Instr} {s t : State} (hi : isCommand i = true) (h : exec i s = .next t) :
    SameConfig t s := by
  obtain ⟨r, u, j, rfl, e, rfl | ⟨d, -, rfl⟩⟩ := exec_effect_cases h
  · exact { e.sameConfig (.inl hi) with }
  · exact { e.sameConfig (isCommand_decodeCmd d) with }

/-- Settles O28: every instruction answers a response on top of an effect, and each effect has the frame. -/
theorem everyInstructionRespondsAndKeepsItsFrame : Obligations.EveryInstructionRespondsAndKeepsItsFrame := by
  intro i s
  obtain ⟨r, u, -, h, -⟩ := exec_any_effect i s
  obtain ⟨hmem, hdelivered, hplatform, hanswers, hrst, hschedule, hdrawn⟩ := exec_keepsAgents h
  refine ⟨_, h, by simp, fun a => by rw [hmem], hdelivered, hplatform, hanswers, hrst, hschedule, hdrawn, fun hi => ?_⟩
  obtain ⟨hwidth, hheight, hfmt, hsrcBase, hintEn⟩ := exec_command_sameConfig hi h
  exact ⟨hwidth, hheight, hfmt, hsrcBase, hintEn⟩

/-- Settles O27: the effects of the commands are the only ones that touch the run. -/
theorem onlyCommandsChangeTheRun : Obligations.OnlyCommandsChangeTheRun := by
  intro i s t hi h
  have hcmd : ∀ d, i ≠ .wrCmd d := by
    rintro d rfl
    cases hi
  obtain ⟨r, u, hnext, e⟩ := exec_effect i s hcmd
  cases hnext.symm.trans h
  cases e with
  | start _ | abort | clearError _ | clearIgn _ | illegal w => cases hi
  | _ => exact ⟨rfl, rfl, rfl, rfl, rfl, rfl, rfl, rfl, rfl⟩

/-! ### Instructions in RUN -/

/-- From `s` to `t` the run goes on as it was: STATE, TILE_INDEX, the port and the hidden state are kept. -/
structure KeepsRun (s t : State) : Prop where
  state : t.state = s.state
  tileIndex : t.tileIndex = s.tileIndex
  port : t.port = s.port
  hidden : t.hidden = s.hidden

/-- In `t` a run has ended with no transfer: in IDLE or ERROR, with no tile presented. -/
def LeavesRun (t : State) : Prop := (t.state = .idle ∨ t.state = .error) ∧ t.port = none

/-- A write to CMD withdraws a presented tile where the command that it writes does (R36, R125). -/
theorem withdraws_wrCmd (d : Word) : withdraws (.wrCmd d) = withdraws (decodeCmd d) := by
  unfold decodeCmd
  obtain ⟨rfl, hc⟩ | ⟨rfl, hc⟩ | ⟨rfl, hc⟩ | ⟨rfl, hc⟩ | ⟨hd, hc⟩ := decodeCommand_cases d <;> rw [hc]
  case inr.inr.inr.inr => exact (congrArg (d == 2 || ·) (decide_eq_true hd)).trans (Bool.or_true _)
  all_goals rfl

theorem Effect.in_run {i : Instr} {s u : State} (e : Effect s i u) (hrun : s.state = .run) :
    (withdraws i = true ∧ LeavesRun u) ∨ KeepsRun s u := by
  cases e with
  | unchanged _ | ignored _ _ | intEn _ | clearIgn _ => exact .inr ⟨rfl, rfl, rfl, rfl⟩
  | width _ h | height _ h | format _ h | srcBase _ h | start h => exact absurd hrun h
  | clearError h => cases hrun.symm.trans h
  | abort => exact .inl ⟨rfl, .inl rfl, rfl⟩
  | illegal w =>
    rw [raiseError_outside_error (by simp [hrun])]
    exact .inl ⟨rfl, .inr rfl, rfl⟩

/-- In RUN an instruction withdraws a presented tile and ends the run, or the run goes on as it was. -/
theorem exec_in_run {i : Instr} {s t : State} (hrun : s.state = .run) (h : exec i s = .next t) :
    (withdraws i = true ∧ LeavesRun t) ∨ KeepsRun s t := by
  obtain ⟨r, u, j, rfl, e, hj⟩ := exec_effect_cases h
  have hwithdraws : withdraws j = withdraws i := by
    obtain rfl | ⟨d, rfl, rfl⟩ := hj
    · rfl
    · exact (withdraws_wrCmd d).symm
  rw [← hwithdraws]
  exact (e.in_run hrun).imp_right fun hkept => { hkept with }

/-! ### Reading the registers back -/

/-- The number of two fields side by side. -/
theorem toNat_append_eq {m n : Nat} (x : BitVec m) (y : BitVec n) : (x ++ y).toNat = 2 ^ n * x.toNat + y.toNat := by
  rw [BitVec.toNat_append, Nat.shiftLeft_eq, Nat.mul_comm, Nat.two_pow_add_eq_or_of_lt y.isLt]

/-- STATUS as a sum of its fields at their bits (R126). -/
theorem statusWord_toNat (s : State) :
    (statusWord s).toNat =
      stateNumber s.state + (if s.port.isSome then 4 else 0) + (if s.ign then 8 else 0) +
        16 * errorNumber s.errCode := by
  rw [statusWord, BitVec.toNat_setWidth_of_le (by decide), toNat_append_eq, toNat_append_eq, toNat_append_eq,
    BitVec.toNat_ofBool, BitVec.toNat_ofBool, RunState.code_toNat, ErrCode.code_toNat, State.tValid]
  cases s.port.isSome <;> cases s.ign <;> simp <;> omega

/-- INT_EN as a sum of its fields at their bits (R128). -/
theorem intEnWord_toNat (s : State) :
    (intEnWord s).toNat = (if s.doneIe then 1 else 0) + (if s.errIe then 2 else 0) := by
  rw [intEnWord, BitVec.toNat_setWidth_of_le (by decide), toNat_append_eq, BitVec.toNat_ofBool, BitVec.toNat_ofBool]
  cases s.doneIe <;> cases s.errIe <;> rfl

/-- The register map has nothing from 0x030 on (R70). -/
theorem registerWord_reserved {o : Offset} (h : 0x030 ≤ o.toNat) (s : State) : registerWord o s = 0 := by
  unfold registerWord
  split
  case h_12 => rfl
  all_goals omega

/-- Settles O12, register by register: the row read at a named offset answers the map's word, and a reserved one 0. -/
theorem alignedReadAnswersTheMappedRegister : Obligations.AlignedReadAnswersTheMappedRegister := by
  intro o d s haligned
  rw [decodeBus_read d haligned]
  obtain ⟨j, rfl⟩ | hreserved := aligned_offset_named_or_reserved haligned
  · fin_cases j
    · exact ⟨_, exec_rdId s, rfl⟩
    · exact ⟨_, exec_rdCmd s, rfl⟩
    · exact ⟨_, exec_rdStatus s, statusWord_toNat s⟩
    · exact ⟨_, exec_rdIntEn s, intEnWord_toNat s⟩
    · exact ⟨_, exec_rdWidth s, BitVec.toNat_setWidth_of_le (by decide)⟩
    · exact ⟨_, exec_rdHeight s, BitVec.toNat_setWidth_of_le (by decide)⟩
    · exact ⟨_, exec_rdFormat s, BitVec.toNat_setWidth_of_le (by decide)⟩
    · exact ⟨_, exec_rdSrcBase s, rfl⟩
    · exact ⟨_, exec_rdTilesX s, rfl⟩
    · exact ⟨_, exec_rdTilesY s, rfl⟩
    · exact ⟨_, exec_rdTileCount s, rfl⟩
    · exact ⟨_, exec_rdTileIndex s, rfl⟩
  · have hlow := reserved_low hreserved
    rw [decodeRead_reserved hlow]
    exact ⟨0, exec_rdReserved o s, (registerWord_reserved hlow s).symm⟩

/-- A field at the low end of DATA is DATA modulo its width, and is read with zeros above it (R84). -/
theorem lowField_readBack {n : Nat} (d : Word) (hn : n ≤ 32) :
    ((d.extractLsb' 0 n).setWidth 32).toNat = d.toNat % 2 ^ n := by
  rw [BitVec.toNat_setWidth_of_le hn, BitVec.extractLsb'_toNat, Nat.shiftRight_zero]

/-- INT_EN holds the two low bits of DATA (R129). -/
theorem intEnField_eq (d : Word) : intEnField d = d.extractLsb' 0 2 := by
  apply BitVec.eq_of_getLsbD_eq
  intro i hi
  rw [BitVec.getLsbD_extractLsb']
  obtain rfl | rfl : i = 0 ∨ i = 1 := by omega
  · simpa using intEnField_getLsbD_zero d
  · simpa using intEnField_getLsbD_one d

/-- INT_EN is read with zeros above its two bits (R128). -/
theorem intEnWord_eq (s : State) : intEnWord s = s.intEn.setWidth 32 := by
  apply BitVec.eq_of_getLsbD_eq
  intro i hi
  rw [intEnWord_getLsbD, BitVec.getLsbD_setWidth, State.doneIe, State.errIe]
  obtain rfl | rfl | hreserved : i = 0 ∨ i = 1 ∨ 2 ≤ i := by omega
  · simp
  · simp
  · rw [if_neg (by omega), if_neg (by omega), BitVec.getLsbD_of_ge _ _ hreserved, Bool.and_false]

/-- Settles O16: the write stores its field of DATA and the read gives that field. -/
theorem writeThenReadReturnsTheField : Obligations.WriteThenReadReturnsTheField := by
  refine fun d s => ⟨fun houtside => ⟨?_, ?_, ?_, ?_⟩, ?_⟩
  · exact ⟨_, _, (exec_wrWidth d s).trans (writeConfig_outside_run houtside), exec_rdWidth _,
      lowField_readBack d (by decide)⟩
  · exact ⟨_, _, (exec_wrHeight d s).trans (writeConfig_outside_run houtside), exec_rdHeight _,
      lowField_readBack d (by decide)⟩
  · exact ⟨_, _, (exec_wrFormat d s).trans (writeConfig_outside_run houtside), exec_rdFormat _,
      lowField_readBack d (by decide)⟩
  · exact ⟨_, _, (exec_wrSrcBase d s).trans (writeConfig_outside_run houtside), exec_rdSrcBase _, rfl⟩
  · refine ⟨_, _, exec_wrIntEn d s, exec_rdIntEn _, ?_⟩
    rw [intEnWord_eq, respond_intEn, intEnField_eq]
    exact lowField_readBack d (by decide)

/-! ### CONFIG -/

/-- The step of a configuration write outside RUN. -/
theorem step_writeConfig {s : State} {w : HostWord} {rest : List Event} {f : State → State}
    (hschedule : s.schedule = .host w :: rest) (hrst : s.rst = false) (houtside : s.state ≠ .run)
    (hw : ∀ u, exec (decodeWord w) u = writeConfig f u) :
    step s = .next (respond .okayWrite (f { s with schedule := rest })) :=
  (step_host hschedule hrst).trans ((hw _).trans (writeConfig_outside_run houtside))

/-- Settles O51: four configuration writes outside RUN, each of them the next event (R91). -/
theorem configPseudoInstructionConfigures : Obligations.ConfigPseudoInstructionConfigures := by
  intro s w h f b rest hrst houtside hschedule
  refine Eq.trans (run_succ_of_step 3 (step_writeConfig hschedule hrst houtside (exec_wrWidth w))) ?_
  refine Eq.trans (run_succ_of_step 2 (step_writeConfig rfl hrst houtside (exec_wrHeight h))) ?_
  refine Eq.trans (run_succ_of_step 1 (step_writeConfig rfl hrst houtside (exec_wrFormat f))) ?_
  refine Eq.trans (run_succ_of_step 0 (step_writeConfig rfl hrst houtside (exec_wrSrcBase b))) ?_
  exact run_zero _

end Sys2Proof.Machine
end

