-- ==== Sys2Proof/Proofs/BlockInvariant.lean ====
section
/-! PROOF. What STATE, ERR_CODE, TILE_INDEX, the geometry and the port say of each other (spec/10_state.md R25, R27,
R33 to R36): it holds of the reset values, each operation of the block keeps it, and so does every step. -/

namespace Sys2Proof.Machine

open Claims

/-! ### The reset values -/

/-- The clause of the invariant on reset says nothing while `rst` = 0. -/
theorem reset_held_of_off {s : State} (h : s.rst = false) : s.rst = true → HoldsResetValues s := by
  simp [h]

theorem HoldsResetValues.blockInv {s : State} (h : HoldsResetValues s) : BlockInv s := by
  have hheld := h
  obtain ⟨hstate, hign, herr, -, -, -, -, -, htx, hty, hcount, hindex, hport, -, -⟩ := h
  exact
    { errCode_none_iff := by simp [hstate, herr]
      presented_in_run := by simp [hport]
      idle_fresh := fun _ => ⟨hindex, hign⟩
      run_remaining := by simp [hstate]
      done_all_taken := by simp [hstate]
      index_le_count := by simp [hindex]
      grid_bound := by simp [htx, hty]
      count_eq := by simp [hcount, htx]
      run_config := by simp [hstate]
      presented_is_next := by simp [hport]
      reset_held := fun _ => hheld }

theorem resetBlock_holdsResetValues (s : State) (l : Bool) : HoldsResetValues { resetBlock s with rst := l } :=
  ⟨rfl, rfl, rfl, rfl, rfl, rfl, rfl, rfl, rfl, rfl, rfl, rfl, rfl, rfl, rfl⟩

/-- Settles O52: after reset STATE is IDLE, with no tile presented, none taken and no byte read ahead. -/
theorem poweredUpMeetsTheInvariants : Obligations.PoweredUpMeetsTheInvariants := by
  refine ⟨⟨Config.defaultPlatform, [], true, [], rfl, rfl⟩, ?_⟩
  rintro s ⟨p, m, l, es, hwf, rfl⟩
  have hreset : HoldsResetValues { State.reset with platform := p, sourceMem := m, memAnswers := l, schedule := es } :=
    ⟨rfl, rfl, rfl, rfl, rfl, rfl, rfl, rfl, rfl, rfl, rfl, rfl, rfl, rfl, rfl⟩
  have not_run : State.reset.state ≠ .run := by decide
  exact ⟨hreset.blockInv, fun hrun => absurd hrun not_run, rfl, fun hrun => absurd hrun not_run, hwf⟩

/-! ### The operations of the host's instructions -/

theorem respond_blockInv {s : State} (hinv : BlockInv s) (hrst : s.rst = false) (r : BusResponse) :
    BlockInv (respond r s) :=
  { hinv with reset_held := reset_held_of_off hrst }

theorem setIgn_blockInv {s : State} (hinv : BlockInv s) (hrst : s.rst = false) (hrun : s.state = .run) :
    BlockInv (setIgn s) :=
  { hinv with
    idle_fresh := fun hidle => by cases hrun.symm.trans hidle
    reset_held := reset_held_of_off hrst }

/-- ERROR holds no tile and an ERR_CODE other than 0 (R25, R27, R202). -/
theorem raiseError_blockInv {c : ErrCode} {s : State} (hinv : BlockInv s) (hrst : s.rst = false) (hc : c ≠ .none) :
    BlockInv (raiseError c s) := by
  by_cases herror : s.state = .error
  · rwa [raiseError_in_error herror]
  · rw [raiseError_outside_error herror]
    exact
      { hinv with
        errCode_none_iff := by simp [hc]
        presented_in_run := by simp
        idle_fresh := by simp
        run_remaining := by simp
        done_all_taken := by simp
        run_config := by simp
        presented_is_next := by simp
        reset_held := reset_held_of_off hrst }

/-- IDLE with no tile, no progress and IGN = 0 (R108, R109). -/
theorem returnToIdle_blockInv {s : State} (hinv : BlockInv s) (hrst : s.rst = false) :
    BlockInv { returnToIdle (withdrawTile s) with ign := false } :=
  { hinv with
    errCode_none_iff := by simp
    presented_in_run := by simp
    idle_fresh := by simp
    run_remaining := by simp
    done_all_taken := by simp
    index_le_count := by simp
    run_config := by simp
    presented_is_next := by simp
    reset_held := reset_held_of_off hrst }

theorem failedStart_blockInv {c : ErrCode} {s : State} (hrst : s.rst = false) (hc : c ≠ .none) (r : Bool) :
    BlockInv (failedStart c r s) :=
  { errCode_none_iff := by simp [failedStart, hc]
    presented_in_run := by simp [failedStart]
    idle_fresh := by simp [failedStart]
    run_remaining := by simp [failedStart]
    done_all_taken := by simp [failedStart]
    index_le_count := by simp [failedStart]
    grid_bound := by simp [failedStart]
    count_eq := by simp [failedStart]
    run_config := by simp [failedStart]
    presented_is_next := by simp [failedStart]
    reset_held := reset_held_of_off hrst }

/-- A grid of 16-bit dimensions in tiles has at most 8191 rows and columns, and its tiles are counted in 32 bits
(R8, R33, R34). -/
theorem grid_fits (w h : BitVec 16) :
    w.toNat / 8 ≤ 8191 ∧ h.toNat / 8 ≤ 8191 ∧ w.toNat / 8 * (h.toNat / 8) < 2 ^ 32 := by
  have hw : w.toNat / 8 ≤ 8191 := by omega
  have hh : h.toNat / 8 ≤ 8191 := by omega
  exact ⟨hw, hh, (Nat.mul_le_mul hw hh).trans_lt (by decide)⟩

/-- So the geometry registers hold START's grid exactly (R107). -/
theorem startedRun_geometry (s : State) :
    (startedRun (s.width.toNat / 8) (s.height.toNat / 8) s).tilesX.toNat = s.width.toNat / 8 ∧
      (startedRun (s.width.toNat / 8) (s.height.toNat / 8) s).tilesY.toNat = s.height.toNat / 8 ∧
      (startedRun (s.width.toNat / 8) (s.height.toNat / 8) s).tileCount.toNat =
        s.width.toNat / 8 * (s.height.toNat / 8) := by
  obtain ⟨hw, hh, hcount⟩ := grid_fits s.width s.height
  refine ⟨?_, ?_, ?_⟩
  · exact (BitVec.toNat_ofNat _ _).trans (Nat.mod_eq_of_lt (by omega))
  · exact (BitVec.toNat_ofNat _ _).trans (Nat.mod_eq_of_lt (by omega))
  · exact (BitVec.toNat_ofNat _ _).trans (Nat.mod_eq_of_lt hcount)

/-- START's success is DONE for an empty grid, and RUN for any other (R107). -/
theorem startedRun_state (tx ty : Nat) (s : State) :
    (tx * ty = 0 ∧ (startedRun tx ty s).state = .done) ∨ (0 < tx * ty ∧ (startedRun tx ty s).state = .run) := by
  by_cases hempty : tx * ty = 0
  · exact .inl ⟨hempty, if_pos hempty⟩
  · exact .inr ⟨Nat.pos_of_ne_zero hempty, if_neg hempty⟩

/-- The run that START starts has a configuration that passed its checks, and tiles to come unless it is DONE at once.
-/
theorem startedRun_blockInv {s : State} (hrst : s.rst = false) (hdims : dimensionsOk s = true)
    (hformat : formatOk s = true) (hrange : rangeOk s = true) :
    BlockInv (startedRun (s.width.toNat / 8) (s.height.toNat / 8) s) := by
  obtain ⟨hw, hh⟩ := dimensionsOk_iff.mp hdims
  obtain ⟨hwide, htall, -⟩ := grid_fits s.width s.height
  obtain ⟨htx, hty, hcount⟩ := startedRun_geometry s
  have hspace : s.srcBase.toNat + rasterBytes s ≤ 2 ^ 32 := by
    have := rangeOk_iff.mp hrange
    omega
  have hwidth : s.width.toNat = 8 * (s.width.toNat / 8) := by omega
  have hheight : s.height.toNat = 8 * (s.height.toNat / 8) := by omega
  have herr : (startedRun (s.width.toNat / 8) (s.height.toNat / 8) s).errCode = .none := rfl
  have hindex : (startedRun (s.width.toNat / 8) (s.height.toNat / 8) s).tileIndex = 0 := rfl
  obtain ⟨hempty, hstate⟩ | ⟨hmore, hstate⟩ := startedRun_state (s.width.toNat / 8) (s.height.toNat / 8) s
  · exact
      { errCode_none_iff := by simp [hstate, herr]
        presented_in_run := by simp [startedRun]
        idle_fresh := by simp [hstate]
        run_remaining := by simp [hstate]
        done_all_taken := fun _ => BitVec.eq_of_toNat_eq (by rw [hindex, hcount, hempty]; rfl)
        index_le_count := Nat.zero_le _
        grid_bound := ⟨htx.trans_le hwide, hty.trans_le htall⟩
        count_eq := by rw [hcount, htx, hty]
        run_config := by simp [hstate]
        presented_is_next := by simp [startedRun]
        reset_held := reset_held_of_off hrst }
  · exact
      { errCode_none_iff := by simp [hstate, herr]
        presented_in_run := by simp [startedRun]
        idle_fresh := by simp [hstate]
        run_remaining := fun _ => by rwa [hcount]
        done_all_taken := by simp [hstate]
        index_le_count := Nat.zero_le _
        grid_bound := ⟨htx.trans_le hwide, hty.trans_le htall⟩
        count_eq := by rw [hcount, htx, hty]
        run_config := fun _ => ⟨htx.symm ▸ hwidth, hty.symm ▸ hheight, formatOk_iff.mp hformat, hspace⟩
        presented_is_next := by simp [startedRun]
        reset_held := reset_held_of_off hrst }

theorem startValidate_blockInv {s : State} (hrst : s.rst = false) : BlockInv (startValidate (startFresh s)) := by
  rw [startValidate_startFresh]
  split
  · exact failedStart_blockInv hrst (by decide) false
  split
  · exact failedStart_blockInv hrst (by decide) false
  split
  · exact failedStart_blockInv hrst (by decide) false
  next hd hf hr => exact startedRun_blockInv hrst (by simpa using hd) (by simpa using hf) (by simpa using hr)

theorem Effect.blockInv {i : Instr} {s u : State} (e : Effect s i u) (hinv : BlockInv s) (hrst : s.rst = false) :
    BlockInv u := by
  cases e with
  | unchanged i => exact hinv
  | ignored i hrun => exact setIgn_blockInv hinv hrst hrun
  | intEn d => exact { hinv with reset_held := reset_held_of_off hrst }
  | width d hrun | height d hrun | format d hrun | srcBase d hrun =>
    exact { hinv with run_config := fun h => absurd h hrun, reset_held := reset_held_of_off hrst }
  | start _ => exact startValidate_blockInv hrst
  | abort => exact returnToIdle_blockInv hinv hrst
  | clearError herror =>
    have hport : s.port = none := hinv.port_eq_none (by simp [herror])
    have hwithdrawn : withdrawTile s = s := by rw [withdrawTile, ← hport]
    have hidle := returnToIdle_blockInv hinv hrst
    rwa [hwithdrawn] at hidle
  | clearIgn _ =>
    exact
      { hinv with
        idle_fresh := fun hidle => ⟨(hinv.idle_fresh hidle).1, rfl⟩
        reset_held := reset_held_of_off hrst }
  | illegal w => exact raiseError_blockInv hinv hrst (by decide)

theorem exec_blockInv {i : Instr} {s t : State} (hinv : BlockInv s) (hrst : s.rst = false) (h : exec i s = .next t) :
    BlockInv t := by
  obtain ⟨r, u, j, hnext, e⟩ := exec_any_effect i s
  cases hnext.symm.trans h
  exact respond_blockInv (e.blockInv hinv hrst) (e.keepsAgents.rst.trans hrst) r

/-! ### The steps of the other agents -/

/-- The tile presented is the next one (R158). -/
theorem engineLoad_blockInv {s : State} (hinv : BlockInv s) (hrst : s.rst = false) (henabled : engineEnabled s = true)
    (bs : List Byte) : BlockInv (engineLoad bs s) := by
  obtain ⟨hrun, -, hremaining⟩ := engineEnabled_iff.mp henabled
  exact
    { hinv with
      presented_in_run := fun _ => hrun
      presented_is_next := by
        rintro tile ⟨⟩
        obtain ⟨-, hrow, hcol, hlast⟩ := nextTile_sideband hinv hremaining bs
        exact ⟨rfl, hrow, hcol, hlast⟩
      reset_held := reset_held_of_off hrst }

theorem engineStep_blockInv {s t : State} (hinv : BlockInv s) (hrst : s.rst = false) (h : engineStep s = .next t) :
    BlockInv t := by
  obtain ⟨-, rfl⟩ | ⟨henabled, -, -, -, ⟨bs, -, rfl⟩ | ⟨-, rfl⟩⟩ := engineStep_cases h
  · exact hinv
  · exact engineLoad_blockInv hinv hrst henabled bs
  · exact raiseError_blockInv hinv hrst (by decide)

theorem readAhead_blockInv {s : State} (hinv : BlockInv s) (hrst : s.rst = false) (a : Word) :
    BlockInv (readAhead a s) := by
  obtain h | ⟨b, -, -, -, -, h⟩ := readAhead_cases a s <;> rw [h]
  · exact hinv
  · exact { hinv with reset_held := reset_held_of_off hrst }

/-- The transfer of the last tile enters DONE with every tile taken, and any other stays in RUN with tiles left
(R159). -/
theorem takeTile_blockInv {s : State} {tile : Tile} (hinv : BlockInv s) (hrst : s.rst = false)
    (hport : s.port = some tile) : BlockInv (takeTile tile s) := by
  have hrun : s.state = .run := hinv.presented_in_run (by simp [hport])
  have hremaining := hinv.run_remaining hrun
  have hsucc := hinv.tileIndex_succ hport
  have hlast := hinv.tileIndex_succ_eq_count_iff hport
  refine
    { hinv with
      errCode_none_iff := ?_
      presented_in_run := by simp
      idle_fresh := ?_
      run_remaining := ?_
      done_all_taken := ?_
      index_le_count := ?_
      run_config := fun _ => hinv.run_config hrun
      presented_is_next := by simp
      reset_held := reset_held_of_off hrst }
  · rw [takeTile_state, takeTile_errCode, hinv.errCode_none_iff, hrun]
    split <;> simp
  · rw [takeTile_state, hrun]
    split <;> simp
  · rw [takeTile_state, takeTile_tileIndex, takeTile_tileCount, hsucc]
    split
    · simp
    next h =>
      rw [hlast] at h
      omega
  · rw [takeTile_state, hrun]
    split
    next h => exact fun _ => h
    · simp
  · rw [takeTile_tileIndex, takeTile_tileCount, hsucc]
    omega

theorem consumerStep_blockInv {s : State} (hinv : BlockInv s) (hrst : s.rst = false) (l : Bool) :
    BlockInv (consumerStep l s) := by
  obtain ⟨h, -⟩ | ⟨tile, hport, -, h⟩ := consumerStep_cases l s <;> rw [h]
  · exact hinv
  · exact takeTile_blockInv hinv hrst hport

/-- A racing write keeps the sideband of a presented tile, and there is no race while `rst` = 1 (R74, R240). -/
theorem pokeByte_blockInv {s : State} (hinv : BlockInv s) (a : Word) (b : Byte) : BlockInv (pokeByte a b s) := by
  obtain ⟨-, h⟩ | ⟨hrace, h⟩ := pokeByte_cases a b s <;> rw [h]
  · exact { hinv with }
  · obtain ⟨hrun, -⟩ := racesRun_iff.mp hrace
    exact
      { hinv with
        presented_in_run := fun _ => hrun
        presented_is_next := by
          intro tile htile
          obtain ⟨presented, hport, rfl⟩ := Option.map_eq_some_iff.mp htile
          exact hinv.presented_is_next presented hport
        reset_held := fun hrst => by cases hrun.symm.trans (hinv.reset_held hrst).1 }

theorem setResetPin_blockInv {s : State} (hinv : BlockInv s) (l : Bool) : BlockInv (setResetPin l s) := by
  obtain h | ⟨-, -, h⟩ := setResetPin_cases l s <;> rw [h]
  · exact (resetBlock_holdsResetValues s l).blockInv
  · exact hinv

theorem Move.blockInv {s t : State} (m : Move s t) (hinv : BlockInv s) : BlockInv t := by
  cases m with
  | still => exact hinv
  | instr i _ hrst h => exact exec_blockInv hinv hrst h
  | engine _ hrst h => exact engineStep_blockInv hinv hrst h
  | readAhead a hrst => exact readAhead_blockInv hinv hrst a
  | consumer l hrst => exact consumerStep_blockInv hinv hrst l
  | poke a b => exact pokeByte_blockInv hinv a b
  | memAnswers l => exact { hinv with }
  | resetPin l => exact setResetPin_blockInv hinv l

/-- The invariant says nothing of the schedule. -/
theorem BlockInv.withSchedule {s : State} (hinv : BlockInv s) (es : List Event) :
    BlockInv { s with schedule := es } :=
  { hinv with }

/-- Settles O53: a step is one of the moves, and each of them keeps the invariant. -/
theorem stepKeepsBlockInvariant : Obligations.StepKeepsBlockInvariant :=
  fun s _ hinv h => (step_move h).blockInv (hinv.withSchedule s.schedule.tail)

end Sys2Proof.Machine
end

