-- ==== Sys2Proof/Proofs/SourceReads.lean ====
section
/-! PROOF. The bytes that a tile is made of (spec/42_tile_datapath.md section 2, spec/20_memory.md section 5): where
they lie, what depends on them, what the engine makes of them with bytes read ahead and in a race, and what another
agent's write does to them. -/

namespace Sys2Proof.Machine

open Claims

/-! ### Where a tile's bytes lie, and what depends on them -/

/-- A byte of a pixel of the raster lies in the active region (R71, R152). -/
theorem pixelByte_inActiveRegion {s : State} {y x j : Nat} (hy : y < s.height.toNat) (hx : x < s.width.toNat)
    (hj : j < channels s.fmt) : inActiveRegion s (pixelAddr s y x + j) = true := by
  have hlow : s.srcBase.toNat ≤ pixelAddr s y x := Nat.le_add_right _ _
  have hhigh := pixelAddr_add_channels_le hy hx
  exact decide_eq_true ⟨by omega, by omega⟩

/-- Settles O39: the active region of a run ends at 2^32 or below (R106). -/
theorem tileBytesLieInTheActiveRegion : Obligations.TileBytesLieInTheActiveRegion := by
  intro s n k j hinv hrun hn hk hj
  obtain ⟨hy, hx⟩ := pixel_in_raster hinv hrun hn hk
  have hregion := pixelByte_inActiveRegion hy hx hj
  obtain ⟨-, -, -, hspace⟩ := hinv.run_config hrun
  obtain ⟨-, hend⟩ := of_decide_eq_true hregion
  exact ⟨hregion, hend.trans_le hspace⟩

/-- A pixel's sample depends on the format, the platform and the answers of its own bytes (R155). -/
theorem sampleAt_congr {s s' : State} {n y x : Nat} (hfmt : s.fmt = s'.fmt) (hplatform : s.platform = s'.platform)
    (haddr : pixelAddr s y x = pixelAddr s' y x)
    (hbytes : ∀ j m, j < channels s.fmt →
      oracleByte s m (pixelAddr s y x + j) = oracleByte s' m (pixelAddr s y x + j)) :
    sampleAt s n y x = sampleAt s' n y x := by
  have hread (m j : Nat) (hj : j < channels s.fmt) :
      memRead s m (pixelAddr s y x + j) = memRead s' m (pixelAddr s' y x + j) := by
    rw [memRead, memRead, hbytes j m hj, hplatform, haddr]
  unfold sampleAt
  rw [← hfmt, ← hplatform]
  by_cases hgray : s.fmt = 0
  · rw [channels_gray hgray] at hread ⊢
    exact hread n 0 (by omega)
  · rw [channels_color hgray] at hread ⊢
    have h0 := hread n 0 (by omega)
    simp only [Nat.add_zero] at h0
    simp only [h0, hread (n + 1) 1 (by omega), hread (n + 2) 2 (by omega)]

/-- Settles O40: pixel by pixel (R156). -/
theorem tileDependsOnlyOnItsOwnBytes : Obligations.TileDependsOnlyOnItsOwnBytes := by
  intro s s' n hwidth hfmt hsrcBase htilesX hplatform hbytes
  have hy (k : Nat) : pixelY s n k = pixelY s' n k := by simp only [pixelY, tileRow, htilesX]
  have hx (k : Nat) : pixelX s n k = pixelX s' n k := by simp only [pixelX, tileCol, htilesX]
  have haddr (y x : Nat) : pixelAddr s y x = pixelAddr s' y x := by simp only [pixelAddr, hwidth, hfmt, hsrcBase]
  refine congrArg collect (List.map_congr_left fun k hk => ?_)
  rw [← hy, ← hx]
  exact sampleAt_congr hfmt hplatform (haddr ..) fun j m hj => hbytes k j m (List.mem_range.mp hk) hj

/-! ### The engine's step, by the next tile's value -/

/-- Settles O32: enabled and answered, the step is decided by whether the next tile has a value (R157, R160). -/
theorem engineStepsExactlyWhenEnabled : Obligations.EngineStepsExactlyWhenEnabled := by
  refine fun s => ⟨?_, fun hinv hready hanswers => ?_⟩
  · rintro (hnot | hsilent)
    · exact engineStep_disabled (Bool.eq_false_iff.mpr fun henabled => hnot (engineEnabled_iff.mp henabled))
    · exact engineStep_unanswered hsilent
  · obtain ⟨hload, hfault⟩ := engineStep_of_ready hinv hready hanswers
    obtain ⟨hrun, -, -⟩ := hready
    refine ⟨fun hreadable => ?_, fun hunreadable => ?_⟩
    · obtain ⟨bs, hbs⟩ := tileSamples_of_readable hreadable
      exact ⟨_, hload bs hbs, by simp, hrun⟩
    · have hnone : tileSamples s s.tileIndex.toNat = none := by
        simp only [TileReadable, not_forall, not_not] at hunreadable
        obtain ⟨k, j, hk, hj, hfails⟩ := hunreadable
        exact tileSamples_eq_none_iff_byte_fails.mpr ⟨k, hk, j, hj, hfails⟩
      refine ⟨_, hfault hnone, ?_⟩
      rw [raiseError_outside_error (by simp [hrun])]
      exact ⟨rfl, rfl⟩

/-- In a run without a race a tile's value is the same with nothing read ahead (R77). -/
theorem tileSamples_discardHidden {s : State} (hinv : HiddenInv s) (hrun : s.state = .run) (hrace : s.srcRace = false)
    (n : Nat) : tileSamples (discardHidden s) n = tileSamples s n := by
  refine tileDependsOnlyOnItsOwnBytes _ _ n rfl rfl rfl rfl rfl fun k j m _ _ => ?_
  rw [oracleByte_of_hiddenInv hinv hrun hrace]
  exact oracleByte_stored hrace rfl

/-- An enabled engine step with an answering memory, on a tile inside source memory, by the tile's value (R157, R158,
R160). -/
theorem engineStep_of_enabled {s : State} (henabled : engineEnabled s = true) (hanswers : s.memAnswers = true)
    (hgrid : s.tilesX ≠ 0) (hspace : tileEnd s s.tileIndex.toNat ≤ Config.addrSpace) :
    (∀ bs, tileSamples s s.tileIndex.toNat = some bs → engineStep s = .next (engineLoad bs s)) ∧
    (tileSamples s s.tileIndex.toNat = none → engineStep s = .next (raiseError .sourceReadError s)) := by
  have hboth : (engineEnabled s && s.memAnswers) = true := by rw [henabled, hanswers, Bool.and_self]
  rw [engineStep, if_pos hboth, if_neg hgrid, if_neg hspace.not_gt]
  exact ⟨fun bs hbs => by rw [hbs], fun hnone => by rw [hnone]⟩

/-- The error entry discards the hidden state, or in ERROR leaves it (R202). -/
theorem raiseError_discardHidden (c : ErrCode) (s : State) :
    raiseError c (discardHidden s) = discardHidden (raiseError c s) := by
  by_cases herror : s.state = .error
  · rw [raiseError_in_error herror, raiseError_in_error (by simpa using herror)]
  · rw [raiseError_outside_error herror, raiseError_outside_error (by simpa using herror)]
    rfl

/-- Settles O42: outside RUN the engine does nothing, and in RUN the tile's value is the same with nothing read ahead.
-/
theorem readAheadIsNotObservable : Obligations.ReadAheadIsNotObservable := by
  intro s t hinv hrace h
  change engineStep (discardHidden s) = .next (discardHidden t)
  obtain ⟨henabled | hsilent, rfl⟩ | ⟨henabled, hanswers, hgrid, hspace, hvalue⟩ := engineStep_cases h
  · exact engineStep_disabled henabled
  · exact engineStep_unanswered hsilent
  · have hrun : s.state = .run := (engineEnabled_iff.mp henabled).1
    have hsame := tileSamples_discardHidden hinv hrun hrace s.tileIndex.toNat
    obtain ⟨hload, hfault⟩ := engineStep_of_enabled (s := discardHidden s) henabled hanswers hgrid hspace
    obtain ⟨bs, hbs, rfl⟩ | ⟨hnone, rfl⟩ := hvalue
    · exact hload bs (hsame.trans hbs)
    · rw [← raiseError_discardHidden]
      exact hfault (hsame.trans hnone)

/-! ### In a race -/

/-- A tile whose cells are the model's free samples holds free values of its own (R74). -/
theorem freeSamples_of_cells {s : State} {tile : Tile}
    (h : ∀ r c, r < 8 → c < 8 → tile.cell r c = freeSample s (3 * (8 * r + c))) : FreeSamples s tile := by
  refine fun r c hr hc => ⟨fun hgray => ?_, fun hcolor => ?_⟩
  · rw [h r c hr hc, freeSample, if_pos (channels_gray hgray)]
  · have hthree : channels s.fmt = 3 := channels_color (by simp [hcolor])
    rw [h r c hr hc, freeSample, if_neg (by simp [hthree])]
    rfl

/-- The 64 free samples of a tile in a race (R74). -/
def raceSamples (s : State) : List Byte := (List.range 64).map fun k => freeSample s (3 * k)

/-- In a race a tile whose bytes can be read has free samples (R74). -/
theorem tileSamples_race {s : State} {n : Nat} (hrace : s.srcRace = true) (hreadable : TileReadable s n) :
    tileSamples s n = some (raceSamples s) := by
  refine collect_eq_some_iff.mpr ((List.map_congr_left fun k hk => ?_).trans List.map_map.symm)
  exact sampleAt_race hrace _ _ _ fun j hj => Bool.eq_false_iff.mpr (hreadable k j (List.mem_range.mp hk) hj)

/-- Settles O41: the tile presented has its own index and sideband, and a free value for each sample. -/
theorem racedTileHoldsFreeSamples : Obligations.RacedTileHoldsFreeSamples := by
  intro s hinv hrace hready hanswers hreadable
  obtain ⟨hload, -⟩ := engineStep_of_ready hinv hready hanswers
  obtain ⟨-, -, hremaining⟩ := hready
  have hbs := tileSamples_race hrace hreadable
  obtain ⟨hlength, -⟩ := tileSamples_eq_some hbs
  refine ⟨nextTile (raceSamples s) s, ?_, nextTile_sideband hinv hremaining _,
    freeSamples_of_cells fun r c hr hc => ?_⟩
  · rw [hload _ hbs, engineLoad_eq, drawTileReads, if_pos hrace]
  · rw [nextTile_cell hlength s (by omega)]
    simp [raceSamples]

/-! ### Another agent's write -/

theorem step_poke {s : State} {a : Word} {b : Byte} {rest : List Event} (h : s.schedule = .poke a b :: rest) :
    step s = .next (pokeByte a b { s with schedule := rest }) :=
  step_cons h

/-- The model's test for a race is the condition of R74. -/
theorem racesRun_iff_isRace {s : State} {a : Nat} : racesRun s a = true ↔ IsRace s a := by
  rw [racesRun_iff, inActiveRegion, decide_eq_true_iff]
  rfl

/-- What the write makes of source memory: its byte, and every other byte as before (R63). -/
theorem Memory.read_write_here_and_elsewhere {m : List Host.Cell} (hm : Memory.wf m = true) (a : Nat) (b : Byte) :
    Memory.read (Memory.write m a b) a = b ∧
      ∀ a', a' ≠ a → Memory.read (Memory.write m a b) a' = Memory.read m a' := by
  refine ⟨?_, fun a' hne => ?_⟩
  · rw [Memory.read_write hm, if_pos rfl]
  · rw [Memory.read_write hm, if_neg hne.symm]

/-- A racing write makes every sample of a presented tile a free value, and keeps its order and sideband (R74). -/
theorem raceTile_freeSamples (s : State) (tile : Tile) :
    ∃ d, raceTile s tile = { tile with data := d } ∧ FreeSamples s { tile with data := d } := by
  refine ⟨_, rfl, freeSamples_of_cells fun r c hr hc => ?_⟩
  exact raceTile_sample s tile (k := 8 * r + c) (by omega)

/-- Settles O30: the two cases of the write, in a race and outside one. -/
theorem pokeWritesOneByteAndRecordsTheRace : Obligations.PokeWritesOneByteAndRecordsTheRace := by
  intro s a b rest hwf hschedule
  obtain ⟨hhere, helsewhere⟩ := Memory.read_write_here_and_elsewhere hwf a.toNat b
  rw [step_poke hschedule]
  obtain ⟨hno, h⟩ | ⟨hyes, h⟩ := pokeByte_cases a b { s with schedule := rest }
  · have hrace : ¬ IsRace s a.toNat := racesRun_iff_isRace.not.mp (Bool.eq_false_iff.mp hno)
    refine ⟨_, s.srcRace, s.port, s.freeDrawn, congrArg _ h, hhere, helsewhere, ?_, fun _ => ⟨rfl, rfl⟩,
      fun hyes => absurd hyes hrace⟩
    simp [hrace]
  · have hrace : IsRace s a.toNat := racesRun_iff_isRace.mp hyes
    refine ⟨_, true, s.port.map (raceTile s), s.freeDrawn + 192, congrArg _ h, hhere, helsewhere, ?_,
      fun hno => absurd hrace hno, fun _ => ⟨le_rfl, fun hport => by rw [hport, Option.map_none], fun tile hport => ?_⟩⟩
    · simp [hrace]
    · obtain ⟨d, hd, hfree⟩ := raceTile_freeSamples s tile
      exact ⟨d, by rw [hport, Option.map_some, hd], hfree⟩

/-! ### The tile beat -/

/-- Settles O43: sample k of the packed beat is the k-th sample, so reading all 64 gives the list back. -/
theorem packedBeatIsTileBytes : Obligations.PackedBeatIsTileBytes := by
  intro t bs hlength hdata
  have hsample (k : Nat) (hk : k < bs.length) : t.sample k = bs[k] := by
    rw [Tile.sample, hdata]
    exact packSamples_sample bs k hk hlength.le
  refine ⟨List.ext_getElem (by simp [Tile.bytes, hlength]) fun k hk hk' => ?_, fun r c hr hc => ?_⟩
  · simpa [Tile.bytes] using hsample k hk'
  · have hk : 8 * r + c < bs.length := by omega
    rw [List.getElem?_eq_getElem hk, ← hsample _ hk]
    rfl

end Sys2Proof.Machine
end

