-- ==== Sys2Proof/Proofs/RunSteps.lean ====
section
/-! PROOF. What a step can do in RUN, said once, and what follows of the port, TILE_INDEX and waiting
(spec/10_state.md R35, R36, spec/70_reset_and_hazards.md R255); what a step can do in the other states (R25); and
which steps fault (R251). -/

namespace Sys2Proof.Machine

open Claims

/-! ### A step in RUN -/

/-- The steps from a state in RUN that meets BlockInv: each case says which event it is, where that matters, and what
it changes of the run. -/
inductive RunStep (s : State) : State → Prop where
  /-- An event that leaves the run as it was. -/
  | kept (t : State) : KeepsRun s t → t.delivered = s.delivered → t.memAnswers = s.memAnswers → RunStep s t
  /-- ABORT or an illegal command. -/
  | withdrawn (i : Instr) (t : State) : nextInstr s = some i → withdraws i = true → LeavesRun t →
      t.delivered = s.delivered → RunStep s t
  /-- ENGINE_LOAD or ENGINE_FAULT. -/
  | engine (t : State) : s.port = none → s.memAnswers = true → t.delivered = s.delivered →
      (LeavesRun t ∨ t.state = .run ∧ t.tileIndex = s.tileIndex) → RunStep s t
  /-- A byte read ahead. -/
  | readAhead (t : State) : s.memAnswers = true → t.state = .run → t.tileIndex = s.tileIndex → t.port = s.port →
      t.delivered = s.delivered → RunStep s t
  /-- A transfer. -/
  | taken (rest : List Event) (tile : Tile) : s.schedule = .consumer true :: rest → s.port = some tile →
      RunStep s (takeTile tile { s with schedule := rest })
  /-- Another agent's write that is the race of R74. -/
  | raced (a : Word) (b : Byte) (rest : List Event) : s.schedule = .poke a b :: rest → IsRace s a.toNat →
      RunStep s { s with schedule := rest, sourceMem := Memory.write s.sourceMem a.toNat b, srcRace := true,
                         port := s.port.map (raceTile s), freeDrawn := s.freeDrawn + 192 }
  /-- Source memory begins or ceases to answer. -/
  | answers (l : Bool) (rest : List Event) : s.schedule = .memoryAnswers l :: rest →
      RunStep s (setMemAnswers l { s with schedule := rest })
  /-- An assertion of reset. -/
  | reset (rest : List Event) (t : State) : s.schedule = .resetPin true :: rest → t.state = .idle → t.port = none →
      t.delivered = s.delivered → RunStep s t

/-- In a run `rst` is 0 (R240). -/
theorem BlockInv.rst_of_run {s : State} (hinv : BlockInv s) (hrun : s.state = .run) : s.rst = false :=
  Bool.eq_false_iff.mpr fun hrst => by cases hrun.symm.trans (hinv.reset_held hrst).1

theorem RunStep.of_instr {i : Instr} {s t : State} {rest : List Event} (hrun : s.state = .run)
    (hi : nextInstr s = some i) (h : exec i { s with schedule := rest } = .next t) : RunStep s t := by
  have hagents := exec_keepsAgents h
  obtain ⟨hwithdraws, hleft⟩ | hkept := exec_in_run (s := { s with schedule := rest }) hrun h
  · exact .withdrawn i t hi hwithdraws hleft hagents.delivered
  · exact .kept t ⟨hkept.state, hkept.tileIndex, hkept.port, hkept.hidden⟩ hagents.delivered hagents.memAnswers

theorem RunStep.of_engine {s t : State} {es : List Event} (hrun : s.state = .run)
    (h : engineStep { s with schedule := es } = .next t) : RunStep s t := by
  obtain ⟨-, rfl⟩ | ⟨henabled, hanswers, -, -, ⟨bs, -, rfl⟩ | ⟨-, rfl⟩⟩ := engineStep_cases h
  · exact .kept _ ⟨rfl, rfl, rfl, rfl⟩ rfl rfl
  · exact .engine _ (engineEnabled_iff.mp henabled).2.1 hanswers rfl (.inr ⟨hrun, rfl⟩)
  · rw [raiseError_outside_error (by simp [hrun])]
    exact .engine _ (engineEnabled_iff.mp henabled).2.1 hanswers rfl (.inl ⟨.inr rfl, rfl⟩)

/-- What an event can do in RUN. -/
theorem event_in_run {s t : State} {e : Event} {rest : List Event} (hinv : BlockInv s) (hrun : s.state = .run)
    (he : s.schedule = e :: rest) (m : EventMove { s with schedule := rest } e t) : RunStep s t := by
  have still : RunStep s { s with schedule := rest } := .kept _ ⟨rfl, rfl, rfl, rfl⟩ rfl rfl
  cases m with
  | still _ => exact still
  | host w _ _ h => exact .of_instr hrun (nextInstr_host he) h
  | hostBus we size addr d x _ _ hx h => exact .of_instr hrun (nextInstr_hostBus he hx) h
  | engine _ _ h => exact .of_engine hrun h
  | readAhead a _ =>
    obtain h | ⟨b, -, hanswers, -, -, h⟩ := readAhead_cases a { s with schedule := rest } <;> rw [h]
    · exact still
    · exact .readAhead _ hanswers hrun rfl rfl rfl
  | consumer l _ =>
    obtain ⟨h, -⟩ | ⟨tile, hport, rfl, h⟩ := consumerStep_cases l { s with schedule := rest } <;> rw [h]
    · exact still
    · exact .taken rest tile he hport
  | poke a b =>
    obtain ⟨-, h⟩ | ⟨hrace, h⟩ := pokeByte_cases a b { s with schedule := rest } <;> rw [h]
    · exact .kept _ ⟨rfl, rfl, rfl, rfl⟩ rfl rfl
    · exact .raced a b rest he (racesRun_iff_isRace.mp hrace)
  | memoryAnswers l => exact .answers l rest he
  | resetPin l =>
    cases l with
    | true => exact .reset rest _ he rfl rfl rfl
    | false =>
      have hoff : setResetPin false { s with schedule := rest } = { s with schedule := rest } := by
        simp [setResetPin, hinv.rst_of_run hrun]
      rwa [hoff]

/-- What a step can do in RUN. -/
theorem step_in_run {s t : State} (hinv : BlockInv s) (hrun : s.state = .run) (h : step s = .next t) : RunStep s t := by
  cases he : s.schedule with
  | nil =>
    rw [step_nil he, idleStep, hinv.rst_of_run hrun, if_neg Bool.false_ne_true] at h
    exact .of_engine (es := s.schedule) hrun h
  | cons e rest => exact event_in_run hinv hrun he (step_event_cases h he)

/-! ### The port, TILE_INDEX and waiting -/

/-- Settles O48: a presented tile makes it a run, and the cases of a step in RUN say what becomes of it. -/
theorem presentedTileIsStable : Obligations.PresentedTileIsStable := by
  intro s t tile hinv hport h hchanged
  have hrun : s.state = .run := hinv.presented_in_run (by simp [hport])
  cases step_in_run hinv hrun h with
  | kept _ hkept => exact absurd (hkept.port.trans hport) hchanged
  | withdrawn i _ hi hwithdraws hleft hdelivered =>
    exact .inl ⟨hleft.2, .inr (.inl ⟨i, hi, hwithdraws, hdelivered⟩)⟩
  | engine _ hempty => cases hport.symm.trans hempty
  | readAhead _ _ _ _ hkept => exact absurd (hkept.trans hport) hchanged
  | taken rest taken hs htaken =>
    cases hport.symm.trans htaken
    exact .inl ⟨rfl, .inl ⟨rest, hs, rfl⟩⟩
  | raced a b rest hs hrace =>
    exact .inr ⟨a, b, rest, (raceTile s tile).data, hs, hrace, rfl, congrArg (Option.map (raceTile s)) hport, rfl⟩
  | answers l rest hs => exact absurd hport hchanged
  | reset rest _ hs _ hempty hdelivered => exact .inl ⟨hempty, .inr (.inr ⟨rest, hs, hdelivered⟩)⟩

/-- Settles O49: of the steps that do not end the run early only the transfer changes TILE_INDEX (R159). -/
theorem tileIndexCountsTransfers : Obligations.TileIndexCountsTransfers := by
  intro s t hinv hrun h hstate
  have not_left : ¬ LeavesRun t := by
    rintro ⟨hidle | herror, -⟩
    · simp [hidle] at hstate
    · simp [herror] at hstate
  cases step_in_run hinv hrun h with
  | kept _ hkept hdelivered => exact .inl ⟨hdelivered, hkept.tileIndex⟩
  | withdrawn _ _ _ _ hleft => exact absurd hleft not_left
  | engine _ _ _ hdelivered hcases => exact .inl ⟨hdelivered, (hcases.resolve_left not_left).2⟩
  | readAhead _ _ _ hindex _ hdelivered => exact .inl ⟨hdelivered, hindex⟩
  | taken rest tile _ hport => exact .inr ⟨tile, hport, rfl, hinv.tileIndex_succ hport⟩
  | raced a b rest => exact .inl ⟨rfl, rfl⟩
  | answers l rest => exact .inl ⟨rfl, rfl⟩
  | reset rest _ _ hidle hempty => exact absurd ⟨.inl hidle, hempty⟩ not_left

/-- A run with a tile presented waits for the transfer (R255 (a)). -/
theorem RunStep.waits_for_consumer {s t : State} (m : RunStep s t) (hrun : s.state = .run)
    (hinstr : ∀ i, nextInstr s = some i → withdraws i = false) (hreset : ∀ rest, s.schedule ≠ .resetPin true :: rest)
    (hport : s.port ≠ none) (hready : ∀ rest, s.schedule ≠ .consumer true :: rest) :
    t.state = .run ∧ t.port ≠ none ∧ t.tileIndex = s.tileIndex := by
  cases m with
  | kept _ hkept => exact ⟨hkept.state.trans hrun, hkept.port ▸ hport, hkept.tileIndex⟩
  | withdrawn i _ hi hwithdraws => simp [hinstr i hi] at hwithdraws
  | engine _ hempty => exact absurd hempty hport
  | readAhead _ _ hstate hindex hkept => exact ⟨hstate, hkept ▸ hport, hindex⟩
  | taken rest _ hs => exact absurd hs (hready rest)
  | raced a b rest => exact ⟨hrun, by simpa using hport, rfl⟩
  | answers l rest => exact ⟨hrun, hport, rfl⟩
  | reset rest _ hs => exact absurd hs (hreset rest)

/-- A run with no tile presented waits for source memory (R255 (b)). -/
theorem RunStep.waits_for_memory {s t : State} (m : RunStep s t) (hrun : s.state = .run)
    (hinstr : ∀ i, nextInstr s = some i → withdraws i = false) (hreset : ∀ rest, s.schedule ≠ .resetPin true :: rest)
    (hport : s.port = none) (hsilent : s.memAnswers = false)
    (hanswers : ∀ rest, s.schedule ≠ .memoryAnswers true :: rest) :
    t.state = .run ∧ t.port = none ∧ t.memAnswers = false ∧ t.tileIndex = s.tileIndex ∧ t.hidden = s.hidden := by
  cases m with
  | kept _ hkept _ hmem =>
    exact ⟨hkept.state.trans hrun, hkept.port.trans hport, hmem.trans hsilent, hkept.tileIndex, hkept.hidden⟩
  | withdrawn i _ hi hwithdraws => simp [hinstr i hi] at hwithdraws
  | engine _ _ hmem => simp [hsilent] at hmem
  | readAhead _ hmem => simp [hsilent] at hmem
  | taken rest tile _ htile => cases hport.symm.trans htile
  | raced a b rest => exact ⟨hrun, by simp [hport], hsilent, rfl, rfl⟩
  | answers l rest hs =>
    cases l with
    | true => exact absurd hs (hanswers rest)
    | false => exact ⟨hrun, hport, rfl, rfl, rfl⟩
  | reset rest _ hs => exact absurd hs (hreset rest)

/-- Settles O60: the two waits of a run, and the whole next state of ABORT and of reset. -/
theorem runWaitsForConsumerAndMemory : Obligations.RunWaitsForConsumerAndMemory := by
  refine ⟨fun s t hinv hrun h hinstr hreset => ?_, fun s w rest hrst hs hw => ?_, fun s rest hs => ?_⟩
  · have m := step_in_run hinv hrun h
    exact ⟨m.waits_for_consumer hrun hinstr hreset, m.waits_for_memory hrun hinstr hreset⟩
  · exact ⟨_, (step_host hs hrst).trans (hw ▸ exec_abort _), rfl⟩
  · exact ⟨_, step_cons hs, rfl⟩

/-! ### A step outside RUN -/

/-- From `s` to `t` nothing moves: STATE, ERR_CODE, TILE_INDEX, the hidden state and the tiles taken are kept, and no
tile is presented. -/
def StaysQuiescent (s t : State) : Prop :=
  t.state = s.state ∧ t.errCode = s.errCode ∧ t.tileIndex = s.tileIndex ∧ t.port = none ∧ t.hidden = s.hidden ∧
    t.delivered = s.delivered

/-- The next instruction outside RUN moves nothing, or it is a command (R24). -/
theorem nextInstr_quiescent_or_command {i : Instr} {s t : State} {rest : List Event} (hport : s.port = none)
    (hi : nextInstr s = some i) (h : exec i { s with schedule := rest } = .next t) :
    StaysQuiescent s t ∨ ∃ i, nextInstr s = some i ∧ isCommand i = true := by
  cases hcommand : isCommand i with
  | true => exact .inr ⟨i, hi, hcommand⟩
  | false =>
    obtain ⟨hstate, herr, -, -, -, hindex, hkept, hhidden, -⟩ := onlyCommandsChangeTheRun i _ t hcommand h
    exact .inl ⟨hstate, herr, hindex, hkept.trans hport, hhidden, (exec_keepsAgents h).delivered⟩

/-- The release of `rst` leaves the block at the reset values that it has held (R240). -/
theorem setResetPin_false_quiescent {s : State} (hinv : BlockInv s) (hport : s.port = none) :
    StaysQuiescent s (setResetPin false s) := by
  cases hrst : s.rst with
  | false =>
    have hoff : setResetPin false s = s := by simp [setResetPin, hrst]
    rw [hoff]
    exact ⟨rfl, rfl, rfl, hport, rfl, rfl⟩
  | true =>
    obtain ⟨hstate, -, herr, -, -, -, -, -, -, -, -, hindex, -, hhidden, -⟩ := hinv.reset_held hrst
    have hon : setResetPin false s = { resetBlock s with rst := false } := by simp [setResetPin, hrst]
    rw [hon]
    exact ⟨hstate.symm, herr.symm, hindex.symm, rfl, hhidden.symm, rfl⟩

/-- An event outside RUN moves nothing, or it is a command of the host or a reset (R25). -/
theorem event_quiescent {s t : State} {e : Event} {rest : List Event} (hinv : BlockInv s) (hrun : s.state ≠ .run)
    (he : s.schedule = e :: rest) (m : EventMove { s with schedule := rest } e t) :
    StaysQuiescent s t ∨ (∃ i, nextInstr s = some i ∧ isCommand i = true) ∨ e = .resetPin true := by
  have hport := hinv.port_eq_none hrun
  have hrun' : ({ s with schedule := rest } : State).state ≠ .run := hrun
  have still : StaysQuiescent s { s with schedule := rest } := ⟨rfl, rfl, rfl, hport, rfl, rfl⟩
  cases m with
  | still _ => exact .inl still
  | host w _ _ h =>
    exact (nextInstr_quiescent_or_command hport (nextInstr_host he) h).imp_right .inl
  | hostBus we size addr d x _ _ hx h =>
    exact (nextInstr_quiescent_or_command hport (nextInstr_hostBus he hx) h).imp_right .inl
  | engine _ _ h =>
    cases (engineStep_outside_run hrun').symm.trans h
    exact .inl still
  | readAhead a _ => exact .inl (by rwa [readAhead_outside_run a hrun'])
  | consumer l _ => 
    have hstill := consumerStep_no_transfer (s := { s with schedule := rest }) (tReady := l) (.inl hport)
    exact .inl (by rwa [hstill])
  | poke a b =>
    obtain ⟨-, h⟩ | ⟨hrace, -⟩ := pokeByte_cases a b { s with schedule := rest }
    · rw [h]
      exact .inl ⟨rfl, rfl, rfl, hport, rfl, rfl⟩
    · exact absurd (racesRun_iff.mp hrace).1 hrun
  | memoryAnswers l => exact .inl ⟨rfl, rfl, rfl, hport, rfl, rfl⟩
  | resetPin l =>
    cases l with
    | true => exact .inr (.inr rfl)
    | false => exact .inl (setResetPin_false_quiescent (hinv.withSchedule rest) hport)

/-- Settles O47: outside RUN the engine does nothing, and every event but a command and a reset moves nothing. -/
theorem quiescentStatesAreLeftOnlyByCommandOrReset : Obligations.QuiescentStatesAreLeftOnlyByCommandOrReset := by
  intro s t hinv hrun h
  cases he : s.schedule with
  | nil =>
    cases ((step_nil he).trans (idleStep_outside_run hrun)).symm.trans h
    exact .inl ⟨rfl, rfl, rfl, hinv.port_eq_none hrun, rfl, rfl⟩
  | cons e rest =>
    exact (event_quiescent hinv hrun he (step_event_cases h he)).imp_right
      (Or.imp_right fun hreset => ⟨rest, by rw [hreset]⟩)

/-! ### Steps that go on, and reset -/

/-- In a state that meets BlockInv the engine raises neither of the model's two faults (R157, log entry 11). -/
theorem engineStep_goes_on {s : State} (hinv : BlockInv s) : ∃ t, engineStep s = .next t := by
  cases henabled : engineEnabled s with
  | false => exact ⟨s, engineStep_disabled henabled⟩
  | true =>
    cases hanswers : s.memAnswers with
    | false => exact ⟨s, engineStep_unanswered hanswers⟩
    | true =>
      obtain ⟨hload, hfault⟩ := engineStep_of_ready hinv (engineEnabled_iff.mp henabled) hanswers
      cases hvalue : tileSamples s s.tileIndex.toNat with
      | some bs => exact ⟨_, hload bs hvalue⟩
      | none => exact ⟨_, hfault hvalue⟩

/-- While `rst` = 1 every event of the block's agents is dropped (R206, R240). -/
theorem runEvent_dropped {e : Event} {s : State} (hrst : s.rst = true) (hpoke : ∀ a b, e ≠ .poke a b)
    (hanswers : ∀ l, e ≠ .memoryAnswers l) (hpin : ∀ l, e ≠ .resetPin l) : runEvent e s = .next s := by
  cases e with
  | poke a b => exact absurd rfl (hpoke a b)
  | memoryAnswers l => exact absurd rfl (hanswers l)
  | resetPin l => exact absurd rfl (hpin l)
  | _ => exact if_pos hrst

/-- An event in a state that meets BlockInv goes on, or it is the read of an empty port (R251). -/
theorem runEvent_goes_on {s : State} (hinv : BlockInv s) (e : Event) :
    (∃ t, runEvent e s = .next t) ∨
      (e = .samplePort ∧ s.port = none ∧ s.rst = false ∧ runEvent e s = .fault .portHasNoValue) := by
  cases hrst : s.rst with
  | true =>
    cases e with
    | poke a b | memoryAnswers l | resetPin l => exact .inl ⟨_, rfl⟩
    | _ => exact .inl ⟨s, if_pos hrst⟩
  | false =>
    cases e with
    | host w =>
      obtain ⟨t, h⟩ := exec_next (decodeWord w) s
      exact .inl ⟨t, by simpa [runEvent, hrst, hostAccess] using h⟩
    | hostBus we size addr d =>
      cases hx : windowDescriptor s.platform we size addr with
      | none => exact .inl ⟨s, by simp [runEvent, hrst, hostBusAccess, hx]⟩
      | some x =>
        obtain ⟨t, h⟩ := exec_next (decodeWord (.bus x d)) s
        exact .inl ⟨t, by simpa [runEvent, hrst, hostBusAccess, hx, hostAccess] using h⟩
    | engine =>
      obtain ⟨t, h⟩ := engineStep_goes_on hinv
      exact .inl ⟨t, by simpa [runEvent, hrst] using h⟩
    | samplePort =>
      cases hport : s.port with
      | some tile => exact .inl ⟨s, by simp [runEvent, hrst, samplePort, hport]⟩
      | none => exact .inr ⟨rfl, rfl, rfl, by simp [runEvent, hrst, samplePort, hport]⟩
    | readAhead a => exact .inl ⟨_, if_neg (by simp [hrst])⟩
    | consumer l => exact .inl ⟨_, if_neg (by simp [hrst])⟩
    | poke a b | memoryAnswers l | resetPin l => exact .inl ⟨_, rfl⟩

/-- Settles O59: only the read of an empty port does not go on. -/
theorem onlyAPrematureSampleFaults : Obligations.OnlyAPrematureSampleFaults := by
  intro s hinv
  unfold StepGoesOn
  cases he : s.schedule with
  | nil =>
    rw [step_nil he, idleStep]
    split
    · exact .inl ⟨s, rfl⟩
    · exact .inl (engineStep_goes_on hinv)
  | cons e rest =>
    rw [step_cons he]
    obtain hgoes | ⟨rfl, hport, hrst, hfault⟩ := runEvent_goes_on (hinv.withSchedule rest) e
    · exact .inl hgoes
    · exact .inr ⟨hfault, hport, hrst, rest, rfl⟩

/-- Settles O50: the consumer's read, by whether the port holds a tile. -/
theorem samplingAnEmptyPortFaults : Obligations.SamplingAnEmptyPortFaults := by
  intro s rest hrst hs
  have hstep : step s = samplePort { s with schedule := rest } := by simp [step_cons hs, runEvent, hrst]
  rw [hstep, samplePort]
  cases s.port <;> simp

theorem step_resetPin {s : State} {l : Bool} {rest : List Event} (h : s.schedule = .resetPin l :: rest) :
    step s = .next (setResetPin l { s with schedule := rest }) :=
  step_cons h

theorem irq_of_idle {s : State} (h : s.state = .idle) : s.irq = false := by
  simp [State.irq, h]

/-- Settles O44: the assertion resets the block and the release resets it again. -/
theorem resetGivesEveryComponentItsValue : Obligations.ResetGivesEveryComponentItsValue := by
  intro s rest hs
  refine ⟨{ resetBlock { s with schedule := rest } with rst := false }, ?_, rfl, rfl, rfl, rfl, rfl, rfl, rfl, rfl,
    rfl, rfl, rfl, rfl, rfl, rfl, rfl, irq_of_idle rfl, rfl, rfl, rfl, rfl, rfl, rfl⟩
  refine Eq.trans (run_succ_of_step 1 (step_resetPin hs)) ?_
  refine Eq.trans (run_succ_of_step 0 (step_resetPin rfl)) ?_
  exact run_zero _

/-- Settles O45: while `rst` = 1 the block is in IDLE, so another agent's write is no race (log entry 7). -/
theorem resetHoldsOffEveryAgent : Obligations.ResetHoldsOffEveryAgent := by
  refine ⟨fun s rest hs => ?_, fun s e rest hrst hs => ⟨fun hpoke hanswers hpin => ?_, ?_, ?_⟩⟩
  · exact ⟨_, step_resetPin hs, resetBlock_holdsResetValues _ true, rfl⟩
  · exact (step_cons hs).trans (runEvent_dropped hrst hpoke hanswers hpin)
  · rintro a b hinv hwf rfl
    have hidle : s.state = .idle := (hinv.reset_held hrst).1
    obtain ⟨-, h⟩ | ⟨hrace, -⟩ := pokeByte_cases a b { s with schedule := rest }
    · exact ⟨_, (step_poke hs).trans (congrArg _ h), Memory.read_write_here_and_elsewhere hwf a.toNat b⟩
    · cases hidle.symm.trans (racesRun_iff.mp hrace).1
  · rintro l rfl
    exact step_cons hs

end Sys2Proof.Machine
end

