-- ==== Sys2Proof/Proofs/RasterDelivery.lean ====
section
/-! PROOF. What source memory, the hidden state and the tiles say of each other (spec/42_tile_datapath.md R155, R158,
R164): memory stays canonical, bytes read ahead stay the bytes stored, the tiles presented and taken stay the
raster's, and a run whose tiles can be read delivers them all. -/

namespace Sys2Proof.Machine

open Claims

/-! ### Source memory in canonical form -/

theorem Move.memory_wf {s t : State} (m : Move s t) (hwf : Memory.wf s.sourceMem = true) :
    Memory.wf t.sourceMem = true := by
  cases m with
  | poke a b => exact Memory.write_wf a b hwf
  | still | memAnswers l => exact hwf
  | instr i _ _ h => rwa [exec_sourceMem h]
  | engine _ _ h => rwa [engineStep_sourceMem h]
  | readAhead a _ => rwa [readAhead_sourceMem]
  | consumer l _ => rwa [consumerStep_sourceMem]
  | resetPin l => rwa [setResetPin_sourceMem]

/-- Settles O54: only another agent's write changes source memory, and a write keeps the form (log entry 2). -/
theorem stepKeepsMemoryCanonical : Obligations.StepKeepsMemoryCanonical :=
  fun _ _ hwf h => (step_move h).memory_wf hwf

/-! ### The bytes read ahead -/

theorem HiddenInv.of_not_run {s : State} (h : s.state ≠ .run) : HiddenInv s := fun hrun => absurd hrun h

theorem DeliversRaster.of_not_run {s : State} (h : s.state ≠ .run) : DeliversRaster s := fun hrun => absurd hrun h

/-- START's validation leaves no byte read ahead and no tile presented (R102). -/
theorem startValidate_empty (s : State) :
    (startValidate (startFresh s)).hidden = [] ∧ (startValidate (startFresh s)).port = none := by
  rw [startValidate_startFresh]
  split_ifs <;> exact ⟨rfl, rfl⟩

theorem Effect.hiddenInv {i : Instr} {s u : State} (e : Effect s i u) (hhidden : HiddenInv s) : HiddenInv u := by
  cases e with
  | unchanged _ | ignored _ _ | intEn _ | clearIgn _ => exact hhidden
  | width _ h | height _ h | format _ h | srcBase _ h => exact .of_not_run h
  | start _ =>
    intro _ _ c hc
    simp [(startValidate_empty s).1] at hc
  | abort | clearError _ => exact .of_not_run (by simp)
  | illegal w => exact .of_not_run (by simp)

theorem exec_hiddenInv {i : Instr} {s t : State} (hhidden : HiddenInv s) (h : exec i s = .next t) : HiddenInv t := by
  obtain ⟨r, u, j, hnext, e⟩ := exec_any_effect i s
  cases hnext.symm.trans h
  exact e.hiddenInv hhidden

theorem engineStep_hiddenInv {s t : State} (hhidden : HiddenInv s) (h : engineStep s = .next t) : HiddenInv t := by
  obtain ⟨-, rfl⟩ | ⟨-, -, -, -, ⟨bs, -, rfl⟩ | ⟨-, rfl⟩⟩ := engineStep_cases h
  · exact hhidden
  · exact hhidden
  · exact .of_not_run (by simp)

/-- The byte read ahead is one of the active region, and the one stored (R37, R71). -/
theorem readAhead_hiddenInv {s : State} (hhidden : HiddenInv s) (a : Word) : HiddenInv (readAhead a s) := by
  obtain h | ⟨b, hrun, -, hregion, hread, h⟩ := readAhead_cases a s <;> rw [h]
  · exact hhidden
  · intro _ hrace c hc
    obtain rfl | hc := List.mem_cons.mp hc
    · obtain ⟨-, hbyte⟩ := memRead_eq_some_iff.mp hread
      exact ⟨hregion, (oracleByte_of_hiddenInv hhidden hrun hrace 0 a.toNat).symm.trans hbyte⟩
    · exact hhidden hrun hrace c hc

/-- A transfer never enters RUN. -/
theorem takeTile_run {s : State} {tile : Tile} (h : (takeTile tile s).state = .run) : s.state = .run := by
  rw [takeTile_state] at h
  split at h
  · cases h
  · exact h

theorem consumerStep_hiddenInv {s : State} (hhidden : HiddenInv s) (l : Bool) : HiddenInv (consumerStep l s) := by
  obtain ⟨h, -⟩ | ⟨tile, -, -, h⟩ := consumerStep_cases l s <;> rw [h]
  · exact hhidden
  · exact fun hrun => hhidden (takeTile_run hrun)

/-- In a run a write that is no race is outside the active region, and so at no byte read ahead (R71). -/
theorem pokeByte_hiddenInv {s : State} (hwf : Memory.wf s.sourceMem = true) (hhidden : HiddenInv s) (a : Word)
    (b : Byte) : HiddenInv (pokeByte a b s) := by
  obtain ⟨hno, h⟩ | ⟨-, h⟩ := pokeByte_cases a b s <;> rw [h]
  · intro hrun hrace c hc
    obtain ⟨hregion, hstored⟩ := hhidden hrun hrace c hc
    have hne : a.toNat ≠ c.1 := by
      intro heq
      rw [← heq] at hregion
      exact Bool.false_ne_true (hno.symm.trans (racesRun_iff.mpr ⟨hrun, hregion⟩))
    exact ⟨hregion, (Memory.read_write hwf _ _ _).trans ((if_neg hne).trans hstored)⟩
  · exact fun _ hrace => nomatch hrace

theorem setResetPin_hiddenInv {s : State} (hhidden : HiddenInv s) (l : Bool) : HiddenInv (setResetPin l s) := by
  obtain h | ⟨-, -, h⟩ := setResetPin_cases l s <;> rw [h]
  · exact .of_not_run (by simp)
  · exact hhidden

theorem Move.hiddenInv {s t : State} (m : Move s t) (hwf : Memory.wf s.sourceMem = true) (hhidden : HiddenInv s) :
    HiddenInv t := by
  cases m with
  | still | memAnswers l => exact hhidden
  | instr i _ _ h => exact exec_hiddenInv hhidden h
  | engine _ _ h => exact engineStep_hiddenInv hhidden h
  | readAhead a _ => exact readAhead_hiddenInv hhidden a
  | consumer l _ => exact consumerStep_hiddenInv hhidden l
  | poke a b => exact pokeByte_hiddenInv hwf hhidden a b
  | resetPin l => exact setResetPin_hiddenInv hhidden l

/-- Settles O55: a step is one of the moves, and each of them keeps the bytes read ahead equal to those stored. -/
theorem stepKeepsHiddenBytesStored : Obligations.StepKeepsHiddenBytesStored :=
  fun _ _ hwf hhidden h => (step_move h).hiddenInv hwf hhidden

/-! ### The tiles presented and taken -/

/-- Cell (r, c) of tile `n` is the tile's pixel number 8r + c (R150). -/
theorem pixelY_cell (s : State) (n r : Nat) {c : Nat} (hc : c < 8) :
    pixelY s n (8 * r + c) = 8 * (n / s.tilesX.toNat) + r := by
  rw [pixelY_eq, tileRow]
  omega

theorem pixelX_cell (s : State) (n r : Nat) {c : Nat} (hc : c < 8) :
    pixelX s n (8 * r + c) = 8 * (n % s.tilesX.toNat) + c := by
  rw [pixelX_eq, tileCol]
  omega

/-- In a run without a race the tile that ENGINE_LOAD presents carries the raster's samples (R155, R158). -/
theorem nextTile_carriesTile {s : State} {bs : List Byte} (hinv : BlockInv s) (hhidden : HiddenInv s)
    (hrace : s.srcRace = false) (hready : EngineReady s) (hanswers : s.memAnswers = true)
    (hbs : tileSamples s s.tileIndex.toNat = some bs) : CarriesTile s s.tileIndex.toNat (nextTile bs s) := by
  have hreadable : TileReadable s s.tileIndex.toNat := fun k j hk hj hfails => by
    have hnone := tileSamples_eq_none_iff_byte_fails.mpr ⟨k, hk, j, hj, hfails⟩
    simp [hbs] at hnone
  obtain ⟨tile, htile, -, hcarries⟩ := engineLoadPresentsTheNextTile s hinv hhidden hrace hready hanswers hreadable
  have hload := (engineStep_of_ready hinv hready hanswers).1 bs hbs
  rw [engineLoad_no_race hrace] at hload
  obtain rfl : tile = nextTile bs s := by simpa using htile.symm.trans hload
  exact hcarries

theorem engineStep_deliversRaster {s t : State} (hinv : BlockInv s) (hhidden : HiddenInv s) (hraster : DeliversRaster s)
    (h : engineStep s = .next t) : DeliversRaster t := by
  obtain ⟨-, rfl⟩ | ⟨henabled, hanswers, -, -, ⟨bs, hbs, rfl⟩ | ⟨-, rfl⟩⟩ := engineStep_cases h
  · exact hraster
  · intro hrun hrace
    obtain ⟨-, htaken⟩ := hraster hrun hrace
    have hnext : CarriesTile s s.tileIndex.toNat (nextTile bs s) :=
      nextTile_carriesTile hinv hhidden hrace (engineEnabled_iff.mp henabled) hanswers hbs
    refine ⟨?_, htaken⟩
    rintro tile ⟨⟩
    exact hnext
  · exact .of_not_run (by simp)

theorem Effect.deliversRaster {i : Instr} {s u : State} (e : Effect s i u) (hraster : DeliversRaster s) :
    DeliversRaster u := by
  cases e with
  | unchanged _ | ignored _ _ | intEn _ | clearIgn _ => exact hraster
  | width _ h | height _ h | format _ h | srcBase _ h => exact .of_not_run h
  | start _ => exact fun _ _ => ⟨by simp [(startValidate_empty s).2], by simp⟩
  | abort | clearError _ => exact .of_not_run (by simp)
  | illegal w => exact .of_not_run (by simp)

theorem exec_deliversRaster {i : Instr} {s t : State} (hraster : DeliversRaster s) (h : exec i s = .next t) :
    DeliversRaster t := by
  obtain ⟨r, u, j, hnext, e⟩ := exec_any_effect i s
  cases hnext.symm.trans h
  exact e.deliversRaster hraster

/-- In a run without a race the tiles taken with a transfer, the one just taken included, carry the raster's samples:
the one taken `k` transfers before is tile TILE_INDEX − k of the state before the transfer (R159). -/
theorem taken_carriesTile {s : State} {tile : Tile} (hraster : DeliversRaster s) (hrun : s.state = .run)
    (hrace : s.srcRace = false) (hport : s.port = some tile) {k : Nat} {t : Tile} (hk : k ≤ s.tileIndex.toNat)
    (h : (tile :: s.delivered)[k]? = some t) : CarriesTile s (s.tileIndex.toNat - k) t := by
  obtain ⟨hpresented, htaken⟩ := hraster hrun hrace
  cases k with
  | zero =>
    obtain rfl : tile = t := by simpa using h
    exact hpresented tile hport
  | succ j =>
    rw [Nat.add_comm j 1, ← Nat.sub_sub]
    exact htaken j t hk h

theorem takeTile_deliversRaster {s : State} {tile : Tile} (hinv : BlockInv s) (hraster : DeliversRaster s)
    (hport : s.port = some tile) : DeliversRaster (takeTile tile s) := by
  intro hrun hrace
  refine ⟨by simp, fun k t hk h => ?_⟩
  rw [takeTile_tileIndex, hinv.tileIndex_succ hport] at hk ⊢
  exact taken_carriesTile hraster (takeTile_run hrun) hrace hport (Nat.le_of_lt_succ hk) h

theorem consumerStep_deliversRaster {s : State} (hinv : BlockInv s) (hraster : DeliversRaster s) (l : Bool) :
    DeliversRaster (consumerStep l s) := by
  obtain ⟨h, -⟩ | ⟨tile, hport, -, h⟩ := consumerStep_cases l s <;> rw [h]
  · exact hraster
  · exact takeTile_deliversRaster hinv hraster hport

theorem readAhead_deliversRaster {s : State} (hraster : DeliversRaster s) (a : Word) :
    DeliversRaster (readAhead a s) := by
  obtain h | ⟨b, -, -, -, -, h⟩ := readAhead_cases a s <;> rw [h] <;> exact hraster

/-- The raster's sample at a pixel depends on the format, the platform and the pixel's own bytes (R155). -/
theorem rasterSample_congr {s s' : State} {y x : Nat} (hfmt : s'.fmt = s.fmt) (hplatform : s'.platform = s.platform)
    (haddr : pixelAddr s' y x = pixelAddr s y x)
    (hbytes : ∀ j < channels s.fmt,
      Memory.read s'.sourceMem (pixelAddr s y x + j) = Memory.read s.sourceMem (pixelAddr s y x + j)) :
    rasterSample s' y x = rasterSample s y x := by
  by_cases hgray : s.fmt = 0
  · rw [channels_gray hgray] at hbytes
    rw [rasterSample_gray hgray, rasterSample_gray (hfmt.trans hgray), haddr]
    exact hbytes 0 (by omega)
  · rw [channels_color hgray] at hbytes
    have hfirst := hbytes 0 (by omega)
    rw [Nat.add_zero] at hfirst
    rw [rasterSample_color hgray, rasterSample_color (hfmt ▸ hgray), hplatform, haddr, hfirst, hbytes 1 (by omega),
      hbytes 2 (by omega)]

/-- A write outside the active region changes no sample of the raster (R71). -/
theorem rasterSample_write {s : State} {a : Nat} {y x : Nat} (hwf : Memory.wf s.sourceMem = true)
    (hout : inActiveRegion s a = false) (b : Byte) (hy : y < s.height.toNat) (hx : x < s.width.toNat) :
    rasterSample { s with sourceMem := Memory.write s.sourceMem a b } y x = rasterSample s y x := by
  refine rasterSample_congr rfl rfl rfl fun j hj => ?_
  have hne : a ≠ pixelAddr s y x + j := by
    rintro rfl
    exact Bool.false_ne_true (hout.symm.trans (pixelByte_inActiveRegion hy hx hj))
  rw [Memory.read_write hwf, if_neg hne]

/-- So it leaves a tile of the grid carrying the raster's samples. -/
theorem CarriesTile.write {s : State} {n a : Nat} {tile : Tile} (h : CarriesTile s n tile) (hinv : BlockInv s)
    (hrun : s.state = .run) (hn : n < s.tileCount.toNat) (hwf : Memory.wf s.sourceMem = true)
    (hout : inActiveRegion s a = false) (b : Byte) :
    CarriesTile { s with sourceMem := Memory.write s.sourceMem a b } n tile := by
  intro r c hr hc
  obtain ⟨hy, hx⟩ := pixel_in_raster hinv hrun hn (k := 8 * r + c) (by omega)
  rw [pixelY_cell s n r hc] at hy
  rw [pixelX_cell s n r hc] at hx
  exact (h r c hr hc).trans (rasterSample_write hwf hout b hy hx).symm

theorem pokeByte_deliversRaster {s : State} (hinv : BlockInv s) (hwf : Memory.wf s.sourceMem = true)
    (hraster : DeliversRaster s) (a : Word) (b : Byte) : DeliversRaster (pokeByte a b s) := by
  obtain ⟨hno, h⟩ | ⟨-, h⟩ := pokeByte_cases a b s <;> rw [h]
  · intro hrun hrace
    obtain ⟨hpresented, htaken⟩ := hraster hrun hrace
    have hremaining := hinv.run_remaining hrun
    have hout : inActiveRegion s a.toNat = false :=
      Bool.eq_false_iff.mpr fun hin => Bool.false_ne_true (hno.symm.trans (racesRun_iff.mpr ⟨hrun, hin⟩))
    refine ⟨fun tile hport => ?_, fun k tile hk hdelivered => ?_⟩
    · exact (hpresented tile hport).write hinv hrun hremaining hwf hout b
    · have hn : s.tileIndex.toNat - 1 - k < s.tileCount.toNat := by omega
      exact (htaken k tile hk hdelivered).write hinv hrun hn hwf hout b
  · exact fun _ hrace => nomatch hrace

theorem setResetPin_deliversRaster {s : State} (hraster : DeliversRaster s) (l : Bool) :
    DeliversRaster (setResetPin l s) := by
  obtain h | ⟨-, -, h⟩ := setResetPin_cases l s <;> rw [h]
  · exact .of_not_run (by simp)
  · exact hraster

theorem Move.deliversRaster {s t : State} (m : Move s t) (hinv : BlockInv s) (hhidden : HiddenInv s)
    (hwf : Memory.wf s.sourceMem = true) (hraster : DeliversRaster s) : DeliversRaster t := by
  cases m with
  | still | memAnswers l => exact hraster
  | instr i _ _ h => exact exec_deliversRaster hraster h
  | engine _ _ h => exact engineStep_deliversRaster hinv hhidden hraster h
  | readAhead a _ => exact readAhead_deliversRaster hraster a
  | consumer l _ => exact consumerStep_deliversRaster hinv hraster l
  | poke a b => exact pokeByte_deliversRaster hinv hwf hraster a b
  | resetPin l => exact setResetPin_deliversRaster hraster l

/-! ### The end of a run -/

/-- A step from RUN to DONE is the transfer of the last tile (R159). -/
theorem step_run_to_done {s t : State} (hinv : BlockInv s) (hrun : s.state = .run) (h : step s = .next t)
    (hdone : t.state = .done) :
    ∃ tile es, s.port = some tile ∧ t = takeTile tile { s with schedule := es } := by
  have not_run : t.state ≠ .run := by simp [hdone]
  have not_left : ¬ LeavesRun t := by simp [LeavesRun, hdone]
  cases step_in_run hinv hrun h with
  | taken rest tile _ hport => exact ⟨tile, rest, hport, rfl⟩
  | kept _ hkept => exact absurd (hkept.state.trans hrun) not_run
  | withdrawn _ _ _ _ hleft => exact absurd hleft not_left
  | engine _ _ _ _ hcases => exact absurd (hcases.resolve_left not_left).1 not_run
  | readAhead _ _ hstate => exact absurd hstate not_run
  | raced a b rest => exact absurd hrun not_run
  | answers l rest => exact absurd hrun not_run
  | reset rest _ _ hidle hempty => exact absurd ⟨.inl hidle, hempty⟩ not_left

/-- In delivery order the tile taken `k` transfers before the last one has the index TILE_INDEX − 1 − k (R76). -/
theorem DeliveredInOrder.index_at {s : State} (h : DeliveredInOrder s) {k : Nat} (hk : k < s.tileIndex.toNat) :
    ∃ tile, s.delivered[k]? = some tile ∧ tile.index.toNat = s.tileIndex.toNat - 1 - k := by
  have hat := congrArg (·[k]?) h
  simp only [List.getElem?_map, List.getElem?_take, if_pos hk] at hat
  rw [List.getElem?_reverse (by simpa), List.length_range, List.getElem?_range (by omega),
    Option.map_eq_some_iff] at hat
  exact hat

/-- Settles O57: each move keeps the raster's tiles, and the transfer that ends a run leaves all of them in order. -/
theorem stepKeepsDeliveredTilesTheRaster : Obligations.StepKeepsDeliveredTilesTheRaster := by
  intro s t hinv hhidden hwf hraster h
  refine ⟨(step_move h).deliversRaster (hinv.withSchedule _) hhidden hwf hraster, fun ho hrun hrace hdone n hn => ?_⟩
  have ho' := stepKeepsDeliveryOrder s t hinv ho h
  have hall : t.tileIndex = t.tileCount := (stepKeepsBlockInvariant s t hinv h).done_all_taken hdone
  rw [← hall] at hn ⊢
  obtain ⟨tile, htile, hindex⟩ := ho'.index_at (k := t.tileIndex.toNat - 1 - n) (by omega)
  refine ⟨tile, htile, by omega, ?_⟩
  obtain ⟨last, es, hport, rfl⟩ := step_run_to_done hinv hrun h hdone
  have hsucc := hinv.tileIndex_succ hport
  rw [takeTile_tileIndex, hsucc, Nat.add_sub_cancel] at htile
  rw [takeTile_tileIndex, hsucc] at hn
  have hcarries := taken_carriesTile hraster hrun hrace hport (Nat.sub_le ..) htile
  rwa [Nat.sub_sub_self (Nat.le_of_lt_succ hn)] at hcarries

end Sys2Proof.Machine
end

