-- ==== Sys2Proof/Proofs/Progress.lean ====
section
/-! PROOF. Progress (spec/42_tile_datapath.md R164): a run whose remaining tiles can be read goes on by rounds of one
ENGINE_LOAD and one TAKE, each of which delivers the next tile, until the last one enters DONE. -/

namespace Sys2Proof.Machine

open Claims

/-- A run between two rounds: no tile presented, out of reset, source memory answering, and every remaining tile
readable. -/
structure BetweenRounds (s : State) : Prop where
  blockInv : BlockInv s
  hiddenInv : HiddenInv s
  run : s.state = .run
  empty : s.port = none
  released : s.rst = false
  answers : s.memAnswers = true
  readable : ∀ n, s.tileIndex.toNat ≤ n → n < s.tileCount.toNat → TileReadable s n

/-- A tile with the sideband of tile `n` and, without a race, the raster's samples. -/
def IsTile (s : State) (n : Nat) (tile : Tile) : Prop :=
  Sideband s n tile ∧ (s.srcRace = false → CarriesTile s n tile)

/-- The state after a round that delivers `tile`, with `f` free values drawn and the events `rest` left. -/
def afterRound (tile : Tile) (f : Nat) (rest : List Event) (s : State) : State :=
  takeTile tile { s with schedule := rest, freeDrawn := f }

/-- The engine's step of a round presents the next tile (R158). -/
theorem BetweenRounds.load {s : State} (h : BetweenRounds s) {rest : List Event} (hs : s.schedule = .engine :: rest) :
    ∃ tile f, step s = .next { s with schedule := rest, port := some tile, freeDrawn := f } ∧
      IsTile s s.tileIndex.toNat tile := by
  obtain ⟨hinv, hhidden, hrun, hempty, hrst, hanswers, hreadable⟩ := h
  have hremaining := hinv.run_remaining hrun
  have hready : EngineReady { s with schedule := rest } := ⟨hrun, hempty, hremaining⟩
  obtain ⟨bs, hbs⟩ := tileSamples_of_readable (hreadable s.tileIndex.toNat le_rfl hremaining)
  have hload := (engineStep_of_ready (hinv.withSchedule rest) hready hanswers).1 bs hbs
  have hstep : step s = engineStep { s with schedule := rest } := by simp [step_cons hs, runEvent, hrst]
  exact ⟨nextTile bs s, _, hstep.trans hload, nextTile_sideband hinv hremaining bs,
    fun hrace => nextTile_carriesTile hinv hhidden hrace ⟨hrun, hempty, hremaining⟩ hanswers hbs⟩

/-- The consumer's step of a round takes the presented tile (R159). -/
theorem step_transfer {s : State} {tile : Tile} {rest : List Event} (hs : s.schedule = .consumer true :: rest)
    (hrst : s.rst = false) (hport : s.port = some tile) :
    step s = .next (takeTile tile { s with schedule := rest }) :=
  (step_consumer hs hrst).trans (congrArg Host.Outcome.next (consumerStep_transfer hport))

/-- A round delivers the next tile and keeps BlockInv (R158, R159). -/
theorem BetweenRounds.round {s : State} (h : BetweenRounds s) {rest : List Event}
    (hs : s.schedule = .engine :: .consumer true :: rest) (n : Nat) :
    ∃ tile f, Host.Core.run core (n + 2) s = Host.Core.run core n (afterRound tile f rest s) ∧
      IsTile s s.tileIndex.toNat tile ∧ BlockInv (afterRound tile f rest s) := by
  obtain ⟨tile, f, hload, htile⟩ := h.load hs
  have hpresented := stepKeepsBlockInvariant _ _ h.blockInv hload
  have htake : step { s with schedule := .consumer true :: rest, port := some tile, freeDrawn := f } =
      .next (afterRound tile f rest s) := step_transfer rfl h.released rfl
  have hinv := stepKeepsBlockInvariant _ _ hpresented htake
  exact ⟨tile, f, (run_succ_of_step (n + 1) hload).trans (run_succ_of_step n htake), htile, hinv⟩

/-- After a round that was not the last the run is again between two rounds. -/
theorem BetweenRounds.after_round {s : State} (h : BetweenRounds s) {tile : Tile} {f : Nat} {rest : List Event}
    (hinv : BlockInv (afterRound tile f rest s)) (hindex : (s.tileIndex + 1).toNat = s.tileIndex.toNat + 1)
    (hmore : s.tileIndex.toNat + 1 < s.tileCount.toNat) : BetweenRounds (afterRound tile f rest s) := by
  have hnot_last : s.tileIndex + 1 ≠ s.tileCount := fun hlast => by
    rw [← hlast, hindex] at hmore
    omega
  have hrun : (afterRound tile f rest s).state = .run := (if_neg hnot_last).trans h.run
  have hnext : (afterRound tile f rest s).tileIndex.toNat = s.tileIndex.toNat + 1 := hindex
  exact
    { blockInv := hinv
      hiddenInv := fun _ hrace => h.hiddenInv h.run hrace
      run := hrun
      empty := rfl
      released := h.released
      answers := h.answers
      readable := fun n hn hcount => h.readable n (by omega) hcount }

/-- In `t` the run from `s` has ended in DONE with `rest` left of the schedule, having delivered the tiles `ds`, the
newest first: one for each index that remained in `s`. -/
structure EndsRun (s t : State) (rest : List Event) (ds : List Tile) : Prop where
  done : t.state = .done
  index : t.tileIndex = s.tileCount
  empty : t.port = none
  schedule : t.schedule = rest
  delivered : t.delivered = ds ++ s.delivered
  length : ds.length = s.tileCount.toNat - s.tileIndex.toNat
  tiles : ∀ n, s.tileIndex.toNat ≤ n → n < s.tileCount.toNat →
    ∃ tile, ds[s.tileCount.toNat - 1 - n]? = some tile ∧ IsTile s n tile

/-- The round of the last tile ends the run. -/
theorem endsRun_of_last_round {s : State} {tile : Tile} {f : Nat} {rest : List Event}
    (hindex : (s.tileIndex + 1).toNat = s.tileIndex.toNat + 1) (hlast : s.tileIndex.toNat + 1 = s.tileCount.toNat)
    (htile : IsTile s s.tileIndex.toNat tile) : EndsRun s (afterRound tile f rest s) rest [tile] := by
  have hcount : s.tileIndex + 1 = s.tileCount := BitVec.eq_of_toNat_eq (hindex.trans hlast)
  refine
    { done := if_pos hcount
      index := hcount
      empty := rfl
      schedule := rfl
      delivered := rfl
      length := ?_
      tiles := fun n hn hcount => ?_ }
  · rw [List.length_singleton]
    omega
  · obtain rfl : n = s.tileIndex.toNat := by omega
    have hfirst : s.tileCount.toNat - 1 - s.tileIndex.toNat = 0 := by omega
    exact ⟨tile, by simp [hfirst], htile⟩

/-- A round before the end of a run delivers its tile before all the others. -/
theorem EndsRun.of_round {s t : State} {tile : Tile} {f : Nat} {es rest : List Event} {ds : List Tile}
    (h : EndsRun (afterRound tile f es s) t rest ds) (hindex : (s.tileIndex + 1).toNat = s.tileIndex.toNat + 1)
    (hmore : s.tileIndex.toNat + 1 < s.tileCount.toNat) (htile : IsTile s s.tileIndex.toNat tile) :
    EndsRun s t rest (ds ++ [tile]) := by
  have hnext : (afterRound tile f es s).tileIndex.toNat = s.tileIndex.toNat + 1 := hindex
  have hcount : (afterRound tile f es s).tileCount = s.tileCount := rfl
  have hlength := h.length
  rw [hnext, hcount] at hlength
  refine
    { done := h.done
      index := h.index
      empty := h.empty
      schedule := h.schedule
      delivered := h.delivered.trans (List.append_assoc ds [tile] s.delivered).symm
      length := ?_
      tiles := fun n hn hn' => ?_ }
  · rw [List.length_append, List.length_singleton, hlength]
    omega
  · obtain rfl | hlater : n = s.tileIndex.toNat ∨ s.tileIndex.toNat + 1 ≤ n := by omega
    · have hend : s.tileCount.toNat - 1 - s.tileIndex.toNat = ds.length := by omega
      exact ⟨tile, by simp [hend], htile⟩
    · obtain ⟨later, hat, hlater⟩ := h.tiles n (hnext.trans_le hlater) hn'
      rw [hcount] at hat
      exact ⟨later, by rw [List.getElem?_append_left (by omega), hat], hlater⟩

/-- By induction on the rounds: each delivers the next tile, and the last ends the run. -/
theorem BetweenRounds.run_rounds (m : Nat) {s : State} (h : BetweenRounds s) {rest : List Event}
    (hm : s.tileCount.toNat - s.tileIndex.toNat = m + 1) (hs : s.schedule = loadTakeRounds (m + 1) ++ rest) :
    ∃ t ds, Host.Core.run core (2 * (m + 1)) s = .next t ∧ EndsRun s t rest ds := by
  induction m generalizing s with
  | zero =>
    obtain ⟨tile, f, hround, htile, hinv⟩ := h.round hs 0
    have hindex : (s.tileIndex + 1).toNat = s.tileIndex.toNat + 1 := by bv_omega
    exact ⟨_, [tile], hround.trans (run_zero _), endsRun_of_last_round hindex (by omega) htile⟩
  | succ m ih =>
    obtain ⟨tile, f, hround, htile, hinv⟩ := h.round hs (2 * (m + 1))
    have hindex : (s.tileIndex + 1).toNat = s.tileIndex.toNat + 1 := by bv_omega
    have hmore : s.tileIndex.toNat + 1 < s.tileCount.toNat := by omega
    have hm' : s.tileCount.toNat - (s.tileIndex + 1).toNat = m + 1 := by omega
    obtain ⟨t, ds, hrun, hends⟩ := ih (h.after_round hinv hindex hmore) hm' rfl
    exact ⟨t, ds ++ [tile], hround.trans hrun, hends.of_round hindex hmore htile⟩

/-- Settles O58: at least one tile remains in RUN, and the rounds deliver those that do. -/
theorem runReachesDoneDeliveringTheRaster : Obligations.RunReachesDoneDeliveringTheRaster := by
  intro s rest hinv hhidden hrun hempty hrst hanswers hreadable hs
  have hremaining := hinv.run_remaining hrun
  obtain ⟨m, hm⟩ : ∃ m, s.tileCount.toNat - s.tileIndex.toNat = m + 1 := Nat.exists_eq_add_one.mpr (by omega)
  have hbetween : BetweenRounds s := ⟨hinv, hhidden, hrun, hempty, hrst, hanswers, hreadable⟩
  obtain ⟨t, ds, hends, h⟩ := hbetween.run_rounds m hm (hm ▸ hs)
  refine ⟨t, hm ▸ hends, h.done, h.index, h.empty, h.schedule, ?_, fun n hn hn' => ?_⟩
  · rw [h.delivered, List.length_append, h.length, Nat.add_comm]
  · obtain ⟨tile, hat, hside, hcarries⟩ := h.tiles n hn hn'
    have hlength := h.length
    exact ⟨tile, by rw [h.delivered, List.getElem?_append_left (by omega), hat], hside, hcarries⟩

end Sys2Proof.Machine
end
